-- ==== Sys2Proof/Word.lean ====
section
/-! DEFINITION. Word.lean: the one data width of the block, `W = 32` (00_scope.md R7), and its bytes (R15).
Bit 0 is the least significant bit (R14). Every value is unsigned (R16). The operators are `BitVec`'s own: `&&&`, `|||`,
`^^^`, and the two logical shifts `<<<` and `>>>`, which lose the bits that leave the word and bring in zeros (R17, R59). -/

namespace Sys2Proof

/-- A 32-bit word: what `din`, `dout` and `permuted` carry (00_scope.md R7). -/
abbrev Word := BitVec 32

/-- One of the four bytes of a word (00_scope.md R15). -/
abbrev Byte := BitVec 8

end Sys2Proof
end

