-- ==== Sys2Proof/Syntax.lean ====
section
/-! DEFINITION. Syntax.lean: the operations of the block (30_encoding.md R47), one constructor for each row of
spec/opcode_table.json, and the abstract syntax of a transaction script (R56, R57), in which the host writes a run. -/

namespace Sys2Proof

/-- One transaction's command: the operation and its operand `din`, all 32 bits, any value (30_encoding.md R44, R47, R48). -/
inductive Instr where
  /-- `ENC`, encode (42_encode.md R79). -/
  | enc (din : Word)
  /-- `DEC`, decode, raw (43_decode.md R83). -/
  | dec (din : Word)
  /-- `ENCT`, encode after truncating the operand to the 26 named bits (42_encode.md R80). -/
  | enct (din : Word)
  /-- `DECT`, decode, then truncate the result to the 26 named bits (43_decode.md R84). -/
  | dect (din : Word)
deriving DecidableEq, Repr

/-- The 26 named feature switches of a FLAGS word, in the order of 30_encoding.md R50. The order of `warpLevel3` and of
all that follow it is the spec's recovery of a damaged table (R51; log entry 9). No operation reads a name (R49). -/
inductive Feature where
  | invincibility | spiritMode | allWeapons | unlimitedAmmo | infiniteLives | allKeys | allMap | bigHeadSesh
  | tinyEnemies | purdyColors | discoMode
  | warpLevel1 | warpLevel2 | warpLevel3 | warpLevel4 | warpLevel5 | warpLevel6 | warpLevel7 | warpLevel8
  | warpLonghunter | warpMantis | warpTrex | warpCampaigner
  | showCredits | flyMode | showEnemies
deriving DecidableEq, Repr

/-- What a script line may write before its operand: the four mnemonics and the two aliases (30_encoding.md R56, R57). -/
inductive Mnemonic where
  | enc | dec | enct | dect
  /-- `encode x` is `ENC x` (R57). -/
  | encode
  /-- `decode x` is `DEC x` (R57). -/
  | decode
deriving DecidableEq, Repr

/-- A script line's label. The spec writes letters; only equality of labels matters, so a number stands for each (log entry 10). -/
abbrev Label := Nat

/-- A script line's operand (30_encoding.md R56, R57). -/
inductive Operand where
  /-- A numeral, decimal, hexadecimal or binary (00_scope.md R19). -/
  | num (n : Nat)
  /-- Feature names joined by `|`: the OR of their masks (R57; before a decode DESIGN CHOICE, log entry 14). -/
  | names (fs : List Feature)
  /-- `ALL`, which means `0x03FFFFFF` (R57; before a decode DESIGN CHOICE, log entry 14). -/
  | all
  /-- `@label`: the `dout` the host sampled from the line so labelled. -/
  | doutOf (l : Label)
  /-- `@label.p`: the `permuted` the host sampled from the line so labelled. -/
  | permutedOf (l : Label)
deriving DecidableEq, Repr

/-- One line of a transaction script, `[label:] MNEMONIC operand` (30_encoding.md R56). -/
structure Line where
  label : Option Label
  mnemonic : Mnemonic
  operand : Operand
deriving DecidableEq, Repr

/-- A transaction script: lines executed top to bottom, no branches and no loops (30_encoding.md R56; 60_exceptions.md R106). -/
abbrev Script := List Line

end Sys2Proof
end

