-- ==== Sys2Proof/WellFormed.lean ====
section
/-! DEFINITION. WellFormed.lean: which terms of the syntax the spec admits. Every instruction is well formed, because every
`op` value and every operand is legal (30_encoding.md R48); a bare number is a command word only if it fits 34 bits (R43);
a script must not name a line it has not yet run, nor write a numeral that is no 32-bit word (R56; log entry 10). -/

namespace Sys2Proof

/-- The number fits the 34 bits of the one command format `CMD` (30_encoding.md R43, R45). -/
def isCommandWord (c : Nat) : Bool := decide (c < 2 ^ 34)

/-- "No command word is illegal, reserved, a hint or custom" (30_encoding.md R48). -/
def Instr.wellFormed : Instr → Bool
  | .enc _ => true
  | .dec _ => true
  | .enct _ => true
  | .dect _ => true

/-- An operand is well formed after lines with the labels `seen`: a numeral is a 32-bit word (00_scope.md R7), a list of
names is not empty, and an `@` form names an earlier line (30_encoding.md R56). DESIGN CHOICE (log entry 14): names and `ALL`
are admitted before every mnemonic; R57 gives them to a FLAGS operand and is silent on a PASSWORD operand. -/
def Operand.wellFormed (seen : List Label) : Operand → Bool
  | .num n => decide (n < 2 ^ 32)
  | .names fs => !fs.isEmpty
  | .all => true
  | .doutOf l => seen.contains l
  | .permutedOf l => seen.contains l

/-- A line is well formed after `seen`: so is its operand, and its own label is new (log entry 10). -/
def Line.wellFormed (seen : List Label) (l : Line) : Bool :=
  l.operand.wellFormed seen && l.label.all (fun m => !seen.contains m)

/-- A script is well formed after `seen`: each line is, with the labels of the lines above it added. -/
def Script.wellFormed (seen : List Label) : Script → Bool
  | [] => true
  | l :: ls => l.wellFormed seen && Script.wellFormed (l.label.toList ++ seen) ls

end Sys2Proof
end

