-- ==== Sys2Proof/Decode.lean ====
section
/-! DEFINITION. Decode.lean: the command word (30_encoding.md R43): the decoder, total and rejecting by name, and after it
the encoder, both written from the opcode map of R47 and spec/opcode_table.json. -/

namespace Sys2Proof

/-- Why a number is not decoded. Safe: the block has no such input, and the model says nothing of it (log entry 8). -/
inductive DecodeError where
  /-- A bit above bit 33 is set: the one format has 34 bits (30_encoding.md R43). Raised by `decode`. -/
  | beyondCommandWord
deriving DecidableEq, Repr

/-- The decoder on command words: `C[33]` is `t`, `C[32]` is `d`, `C[31:0]` is `din` (30_encoding.md R43, R46, R47).
It is total and has no "invalid" verdict (R48). -/
def decodeCommand (c : BitVec 34) : Instr :=
  match c.getLsbD 33, c.getLsbD 32 with
  | false, false => .enc (c.extractLsb' 0 32)
  | false, true => .dec (c.extractLsb' 0 32)
  | true, false => .enct (c.extractLsb' 0 32)
  | true, true => .dect (c.extractLsb' 0 32)

/-- The decoder on any number: a command word is decoded, a number with a bit above bit 33 is rejected by name. -/
def decode (c : Nat) : Except DecodeError Instr :=
  if isCommandWord c then .ok (decodeCommand (BitVec.ofNat 34 c)) else .error .beyondCommandWord

/-- The value on `op[1:0]` that selects an instruction (30_encoding.md R47). -/
def Instr.op : Instr → BitVec 2
  | .enc _ => 0b00#2
  | .dec _ => 0b01#2
  | .enct _ => 0b10#2
  | .dect _ => 0b11#2

/-- The value on `din[31:0]` (30_encoding.md R44). -/
def Instr.din : Instr → Word
  | .enc x => x
  | .dec x => x
  | .enct x => x
  | .dect x => x

/-- The encoder: `C[33:0] = op[1:0] ++ din[31:0]` (30_encoding.md R43). -/
def encode (i : Instr) : BitVec 34 := i.op ++ i.din

/-- A row of the opcode map as match and mask over `C` (30_encoding.md R47; spec/opcode_table.json). -/
structure OpcodeRow where
  mnemonic : String
  pattern : BitVec 34
  mask : BitVec 34
deriving DecidableEq, Repr

/-- The four rows of the opcode map, as R47 writes them. -/
def opcodeRows : List OpcodeRow :=
  [⟨"ENC", 0x000000000#34, 0x300000000#34⟩, ⟨"DEC", 0x100000000#34, 0x300000000#34⟩,
   ⟨"ENCT", 0x200000000#34, 0x300000000#34⟩, ⟨"DECT", 0x300000000#34, 0x300000000#34⟩]

/-- A command word belongs to a row. -/
def OpcodeRow.admits (r : OpcodeRow) (c : BitVec 34) : Bool := c &&& r.mask == r.pattern

/-- The mnemonic of an instruction (30_encoding.md R47). -/
def Instr.mnemonic : Instr → String
  | .enc _ => "ENC"
  | .dec _ => "DEC"
  | .enct _ => "ENCT"
  | .dect _ => "DECT"

/-- A command word as a script line's encoding shows it: nine hexadecimal digits, the first of them `op`
(30_encoding.md R56; 95_test_vectors.md, column `C`). -/
def hexDigits (c : BitVec 34) : List (BitVec 4) :=
  (List.range 9).map fun k => (c.zeroExtend 36).extractLsb' (4 * (8 - k)) 4

/-- The instruction the decoder reads from the bits `w` of a table row of `nbits` bits; bits from `nbits` up are 0.
The block stores no words (20_memory.md R34), so the bits are those of `C` and there is no byte order to apply. -/
def decodeTableWord (nbits w : Nat) : Option Instr :=
  match decode (w % 2 ^ nbits) with
  | .ok i => some i
  | .error _ => none

end Sys2Proof
end

