-- ==== Sys2Proof/Machine/Operands.lean ====
section
/-! DEFINITION. Machine/Operands.lean: the constants of the logic, the bytes of a word, and the one thing an operation may
do to a FLAGS-side word before or after the datapath: confine it to its named bits. The operand itself is `din`, used whole
(30_encoding.md R44). -/

namespace Sys2Proof.Machine

/-- `KEY`, "fixed, not configurable" (00_scope.md R9; 41_fixed_xor_cipher.md R76). -/
def key : Word := 0xA5B4C3D2#32

/-- `FLAG_MASK`: bits 0 to 25, all the named flags (00_scope.md R10). -/
def flagMask : Word := 0x03FFFFFF#32

/-- The byte at byte position `k`: bits `8k+7` down to `8k` (00_scope.md R15; 20_memory.md R33). -/
def byteAt (k : Nat) (v : Word) : Byte := v.extractLsb' (8 * k) 8

/-- The word with bytes `b3 ++ b2 ++ b1 ++ b0`, most significant first (00_scope.md R15). -/
def ofBytes (b3 b2 b1 b0 : Byte) : Word := b3 ++ b2 ++ b1 ++ b0

/-- The FLAGS-side word as the `t` bit of `op` leaves it: confined to bits 0 to 25 when `t` is 1, untouched when it is 0
(30_encoding.md R46). -/
def confine (t : Bool) (w : Word) : Word := if t then w &&& flagMask else w

end Sys2Proof.Machine
end

