-- ==== Sys2Proof/Config.lean ====
section
/-! DEFINITION. Config.lean: what the spec leaves open, as constants without a body, so that nothing can be proved of their
values. The block has no configuration of its own (00_scope.md R13): `KEY` and `FLAG_MASK` are constants of the logic
(10_state.md R31) and stand in Machine/Operands.lean. -/

namespace Sys2Proof

/-- FREE VALUE (log entries 4, 5, 6). What the bits of `dout` hold at the n-th draw, where the spec says "any value":
before the outputs have settled (70_reset_and_hazards.md R119), where they depend on an undriven input bit (R120), and
before the inputs are first driven (R113). -/
opaque Config.freeDout : Nat → Word

/-- FREE VALUE (log entries 4, 5, 6). The same for the port `permuted`. -/
opaque Config.freePermuted : Nat → Word

/-- FREE VALUE (log entry 4). How many of the host's further samples fall within `T_PD` of the input change made at the
n-th draw. `T_PD` is an open parameter with no number and no unit (00_scope.md R12; 70_reset_and_hazards.md R118). -/
opaque Config.samplesWithinDelay : Nat → Nat

end Sys2Proof
end

