-- ==== Sys2Proof/Machine/State.lean ====
section
/-! DEFINITION. Machine/State.lean: what stands on the block's four ports, and the two reasons to stop.
THE SPEC GIVES THE BLOCK NO ARCHITECTURAL STATE (10_state.md R20 to R23, R27 to R31): nothing a later transaction could
read is left behind. State is the values on the ports (R24) at the host's last sample, whether the inputs have been held
longer than `T_PD` (70_reset_and_hazards.md R119), and a counter of free values (log entries 1 and 7). There is no
register, program counter, flag, mode, memory, reservation or saved exception state to hold. -/

namespace Sys2Proof.Machine

/-- The input ports (10_state.md R24): the values on `op[1:0]` and `din[31:0]`, and which of their bits are driven to a
defined 0 or 1 (70_reset_and_hazards.md R120). -/
structure Pins where
  op : BitVec 2
  opDriven : BitVec 2
  din : Word
  dinDriven : Word
deriving DecidableEq, Repr

/-- The two outputs of one transaction, `(dout, permuted)` (10_state.md R24, R25). -/
structure Answer where
  dout : Word
  permuted : Word
deriving DecidableEq, Repr

/-- Where the outputs stand in time after the last input change (70_reset_and_hazards.md R119). -/
inductive Phase where
  /-- The inputs changed, and the outputs have not been sampled settled since: `n` more samples fall within `T_PD`, the
  one after them does not. -/
  | settling (n : Nat)
  /-- The inputs have been held for longer than `T_PD` and the outputs have been sampled since. -/
  | settled
deriving DecidableEq, Repr

/-- The ports of one block instance as the host sees them. -/
structure State where
  /-- The input ports (10_state.md R24). -/
  pins : Pins
  /-- The output port `dout[31:0]` (R24, R25). -/
  dout : Word
  /-- The output port `permuted[31:0]`, the word between the stages (R24, R26). -/
  permuted : Word
  /-- Whether the inputs have been held longer than `T_PD` (R119). -/
  phase : Phase
  /-- The model's own counter: how many free values have been drawn (log entry 7). -/
  draws : Nat
deriving DecidableEq, Repr

/-- Why the machine may stop with a fault: no reason exists. "No operation, on any operand, raises anything"
(60_exceptions.md R99). Nobody raises one; safe and unsafe do not arise. -/
inductive Fault where
deriving DecidableEq, Repr

/-- Why the model may refuse. The spec needs "no fault outcome and no refusal outcome" (60_exceptions.md R99). -/
inductive Refusal where
  /-- An instruction without a meaning. Raised by an arm of `exec` alone; no arm raises it, every instruction has its
  meaning. Safe: nothing is said of the machine. -/
  | notModelled (mnemonic : String)
deriving DecidableEq, Repr

/-- Power-up. The block has no reset input and no state to reset (10_state.md R30; 70_reset_and_hazards.md R113): no input
bit is driven yet, and the outputs are any value (R113; 93_implementation_defined.md U10). The stored 0 of an undriven bit
and the two counters are the model's choice (log entries 6 and 7). -/
def State.reset : State where
  pins := ⟨0, 0, 0, 0⟩
  dout := Config.freeDout 0
  permuted := Config.freePermuted 0
  phase := .settling 0
  draws := 1

end Sys2Proof.Machine
end

