-- ==== Sys2Proof/Machine/Ops.lean ====
section
/-! DEFINITION. Machine/Ops.lean: the two datapath stages, the outputs of each operation, `eval`, the ports as the host
drives and samples them, and the two hazards. Memory operations: none (20_memory.md R32). Taking an exception and returning
from one: none to model, nothing is raised, saved or returned from (60_exceptions.md R99, R102, R103). -/

namespace Sys2Proof.Machine

/-! ## The permutation stage and the key stage -/

/-- `PERM_F`, the forward byte permutation: `B3` to byte position 1, `B2` to 3, `B1` to 0, `B0` to 2
(40_byte_permutation.md R62). -/
def permF (f : Word) : Word :=
  let esi := (f >>> 24) <<< 8
  let edx := (f &&& 0x00FF0000#32) <<< 8
  let dhTerm := (f &&& 0x0000FF00#32) >>> 8
  let dlTerm := (f &&& 0x000000FF#32) <<< 16
  esi ||| edx ||| dhTerm ||| dlTerm

/-- `PERM_I`, the inverse byte permutation; the left shift by 24 discards all of `p >> 8` but its low byte
(40_byte_permutation.md R65). -/
def permI (p : Word) : Word :=
  let esi := (p >>> 8) <<< 24
  let edx := (p >>> 8) &&& 0x00FF0000#32
  let dhTerm := (p <<< 8) &&& 0x0000FF00#32
  let dlTerm := (p >>> 16) &&& 0x000000FF#32
  esi ||| edx ||| dhTerm ||| dlTerm

/-- `XORK`, the `fixed_xor_cipher` stage (41_fixed_xor_cipher.md R73). -/
def xork (v : Word) : Word := v ^^^ key

/-! ## The outputs of each operation -/

/-- The outputs of `ENC` (42_encode.md R79). -/
def encAnswer (din : Word) : Answer :=
  let p := permF din
  { dout := xork p, permuted := p }

/-- The outputs of `DEC`: all 32 bits are delivered (43_decode.md R83, R85). -/
def decAnswer (din : Word) : Answer :=
  let p := xork din
  { dout := permI p, permuted := p }

/-- The outputs of `ENCT`: the operand is confined before the permutation (42_encode.md R80; 30_encoding.md R46). -/
def enctAnswer (din : Word) : Answer :=
  let p := permF (confine true din)
  { dout := xork p, permuted := p }

/-- The outputs of `DECT`: `dout` is confined after the permutation, `permuted` is not (43_decode.md R84). -/
def dectAnswer (din : Word) : Answer :=
  let p := xork din
  { dout := confine true (permI p), permuted := p }

/-- `eval`, the function the block is: total, without time or memory (10_state.md R25), by the opcode map
(30_encoding.md R47). -/
def eval (op : BitVec 2) (din : Word) : Answer :=
  match op.getLsbD 1, op.getLsbD 0 with
  | false, false => encAnswer din
  | false, true => decAnswer din
  | true, false => enctAnswer din
  | true, true => dectAnswer din

/-- A PASSWORD word is clean when its raw decode has bits 26 to 31 all zero (44_laws.md R95). The block does not test it
(43_decode.md R86): it is a word of claims. -/
def cleanPassword (p : Word) : Bool := (decAnswer p).dout.extractLsb' 26 6 == 0#6

/-! ## The input ports -/

/-- Both ports driven to defined values on every bit: what a transaction presents (10_state.md R24; 60_exceptions.md R111). -/
def Pins.drive (op : BitVec 2) (din : Word) : Pins := ⟨op, 0b11#2, din, 0xFFFFFFFF#32⟩

/-- The pins that present an instruction: its command word, split into the two ports (30_encoding.md R43). -/
def Pins.ofInstr (i : Instr) : Pins := Pins.drive i.op i.din

/-- Every input bit is driven to a defined 0 or 1 (70_reset_and_hazards.md R120). -/
def Pins.allDriven (p : Pins) : Bool := p.opDriven == 0b11#2 && p.dinDriven == 0xFFFFFFFF#32

/-- The command word on the ports: a notation for their values, nothing stores it (30_encoding.md R43). -/
def Pins.command (p : Pins) : BitVec 34 := p.op ++ p.din

/-- The instruction the ports present (20_memory.md R41: "the value on the `op` port during that transaction, nothing
older"). -/
def fetch (p : Pins) : Instr := decodeCommand p.command

/-- The host changes the input ports (60_exceptions.md R111). The outputs are any value from that moment
(70_reset_and_hazards.md R119), and settling starts anew. Presenting what already stands on the ports changes no input
(20_memory.md R37; log entry 4). DESIGN CHOICE (log entry 15): any other pins are a change, so a bit that becomes driven or
undriven, or a different stored value of an undriven bit, frees both outputs and restarts settling too; R119 and R120 do not
say whether a level on an undriven bit is a change of `op` or `din`. -/
def State.present (s : State) (p : Pins) : State :=
  if p = s.pins then s
  else
    { s with
      pins := p
      dout := Config.freeDout s.draws
      permuted := Config.freePermuted s.draws
      phase := .settling (Config.samplesWithinDelay s.draws)
      draws := s.draws + 1 }

/-- The host changes `op` alone: one half of a skewed change (70_reset_and_hazards.md R121). -/
def State.presentOp (s : State) (op : BitVec 2) : State := s.present { s.pins with op := op, opDriven := 0b11#2 }

/-- The host changes `din` alone: the other half of a skewed change (70_reset_and_hazards.md R121). -/
def State.presentDin (s : State) (din : Word) : State :=
  s.present { s.pins with din := din, dinDriven := 0xFFFFFFFF#32 }

/-! ## Sampling the outputs -/

/-- How many more samples fall within `T_PD` (70_reset_and_hazards.md R119). -/
def Phase.remaining : Phase → Nat
  | .settling n => n
  | .settled => 0

/-- One whole transaction: the pair stands on the ports, is held for longer than `T_PD`, and the host samples the answer
(00_scope.md glossary "Transaction"; 10_state.md R25). No flag and no state is written (R20, R22). -/
def State.transact (s : State) (i : Instr) (a : Answer) : State :=
  { s with pins := Pins.ofInstr i, dout := a.dout, permuted := a.permuted, phase := .settled }

/-- A sample within `T_PD` of the last input change: each bit of both outputs is a free draw
(70_reset_and_hazards.md R119). -/
def State.sampleUnsettled (s : State) (n : Nat) : State :=
  { s with
    dout := Config.freeDout s.draws
    permuted := Config.freePermuted s.draws
    phase := .settling n
    draws := s.draws + 1 }

/-- The output bits that depend on an undriven bit of `op` (70_reset_and_hazards.md R120): every bit depends on `op[0]`;
`op[1]` reaches `permuted[15:10]` and `dout[15:10]` of an encode, `dout[31:26]` of a decode. -/
def undrivenOpReach (p : Pins) : Answer :=
  match p.opDriven.getLsbD 0, p.opDriven.getLsbD 1, p.op.getLsbD 0 with
  | false, _, _ => { dout := 0xFFFFFFFF#32, permuted := 0xFFFFFFFF#32 }
  | true, true, _ => { dout := 0#32, permuted := 0#32 }
  | true, false, false => { dout := 0x0000FC00#32, permuted := 0x0000FC00#32 }
  | true, false, true => { dout := 0xFC000000#32, permuted := 0#32 }

/-- The output bits that depend on an undriven bit of `din` (70_reset_and_hazards.md R120): the permutations carry each
input bit to one output bit (44_laws.md R91, R92); the key moves none; under `ENCT` bits 31 to 26 of `din` reach nothing,
under `DECT` `dout[31:26]` depends on nothing. -/
def undrivenDinReach (p : Pins) : Answer :=
  let u := ~~~p.dinDriven
  match p.op.getLsbD 0 with
  | false =>
    let q := permF (confine (p.op.getLsbD 1) u)
    { dout := q, permuted := q }
  | true => { dout := confine (p.op.getLsbD 1) (permI u), permuted := u }

/-- The output bits that depend on some undriven input bit (70_reset_and_hazards.md R120). -/
def undrivenReach (p : Pins) : Answer :=
  { dout := (undrivenOpReach p).dout ||| (undrivenDinReach p).dout
    permuted := (undrivenOpReach p).permuted ||| (undrivenDinReach p).permuted }

/-- The word that is `free` on the bits of `u` and `v` on the others. -/
def mixFree (u v free : Word) : Word := (v &&& ~~~u) ||| (free &&& u)

/-- A settled sample with some input bit undriven: the output bits that depend on such a bit are any value, the others are
still `eval` of the inputs (70_reset_and_hazards.md R120; 93_implementation_defined.md U9). -/
def State.sampleUndriven (s : State) : State :=
  { s with
    dout := mixFree (undrivenReach s.pins).dout (eval s.pins.op s.pins.din).dout (Config.freeDout s.draws)
    permuted := mixFree (undrivenReach s.pins).permuted (eval s.pins.op s.pins.din).permuted (Config.freePermuted s.draws)
    phase := .settled
    draws := s.draws + 1 }

end Sys2Proof.Machine
end

