-- ==== Sys2Proof/Machine/Decode.lean ====
section
/-! DEFINITION. Machine/Decode.lean: the decode family, PASSWORD side in, FLAGS side out (43_decode.md). Neither operation
can fail, stall or refuse (R86). -/

namespace Sys2Proof.Machine

/-- `DEC` (43_decode.md R83). -/
def execDec (din : Word) (s : State) : Host.Outcome State Fault Refusal :=
  .next (s.transact (.dec din) (decAnswer din))

/-- `DECT` (43_decode.md R84). -/
def execDect (din : Word) (s : State) : Host.Outcome State Fault Refusal :=
  .next (s.transact (.dect din) (dectAnswer din))

end Sys2Proof.Machine
end

