-- ==== Sys2Proof/Machine/Encode.lean ====
section
/-! DEFINITION. Machine/Encode.lean: the encode family, FLAGS side in, PASSWORD side out (42_encode.md). Neither operation
can fail, stall or refuse (R81). -/

namespace Sys2Proof.Machine

/-- `ENC` (42_encode.md R79). -/
def execEnc (din : Word) (s : State) : Host.Outcome State Fault Refusal :=
  .next (s.transact (.enc din) (encAnswer din))

/-- `ENCT` (42_encode.md R80). -/
def execEnct (din : Word) (s : State) : Host.Outcome State Fault Refusal :=
  .next (s.transact (.enct din) (enctAnswer din))

end Sys2Proof.Machine
end

