-- ==== Sys2Proof/Machine/Dispatch.lean ====
section
/-! DEFINITION. Machine/Dispatch.lean: one arm per constructor of `Instr`, each a direct call of its meaning. -/

namespace Sys2Proof.Machine

/-- One transaction. -/
def exec (i : Instr) (s : State) : Host.Outcome State Fault Refusal :=
  match i with
  | .enc din => Sys2Proof.Machine.execEnc din s
  | .dec din => Sys2Proof.Machine.execDec din s
  | .enct din => Sys2Proof.Machine.execEnct din s
  | .dect din => Sys2Proof.Machine.execDect din s

end Sys2Proof.Machine
end

