-- ==== Sys2Proof/Machine/Step.lean ====
section
/-! DEFINITION. Machine/Step.lean: a step is one sample the host takes of the output ports (60_exceptions.md R111). The
block sequences nothing (10_state.md R21): the pins stay as the host left them, and the next step samples them again. -/

namespace Sys2Proof.Machine

/-- One sample. Within `T_PD` of an input change the outputs are any value (70_reset_and_hazards.md R119). After it, with
every input bit driven, the sample completes the transaction on the ports (10_state.md R25); with an input bit undriven,
the output bits that depend on it are any value (R120). -/
def step (s : State) : Host.Outcome State Fault Refusal :=
  match s.phase.remaining, s.pins.allDriven with
  | n + 1, _ => .next (s.sampleUnsettled n)
  | 0, true => exec (fetch s.pins) s
  | 0, false => .next s.sampleUndriven

/-- `s` with the command word `w` of a table row of `nbits` bits on the input ports, driven and held: the next step samples
its answer (log entry 3). -/
def State.withFetchWord (s : State) (nbits w : Nat) : State :=
  { s with
    pins := Pins.drive (BitVec.ofNat 2 (w % 2 ^ nbits / 2 ^ 32)) (BitVec.ofNat 32 (w % 2 ^ nbits))
    phase := .settling 0 }

end Sys2Proof.Machine
end

