-- ==== Sys2Proof/Machine/Flags.lean ====
section
/-! DEFINITION. Machine/Flags.lean: the FLAGS word and the names of its bits (30_encoding.md R49 to R51).
The block has NO condition codes: no operation sets or reads a carry, zero, overflow, error or validity flag (10_state.md
R22), so there is no flag computation. -/

namespace Sys2Proof.Machine

/-- All 26 features, in the order of their bits (30_encoding.md R50). -/
def allFeatures : List Feature :=
  [.invincibility, .spiritMode, .allWeapons, .unlimitedAmmo, .infiniteLives, .allKeys, .allMap, .bigHeadSesh,
   .tinyEnemies, .purdyColors, .discoMode, .warpLevel1, .warpLevel2, .warpLevel3, .warpLevel4, .warpLevel5,
   .warpLevel6, .warpLevel7, .warpLevel8, .warpLonghunter, .warpMantis, .warpTrex, .warpCampaigner,
   .showCredits, .flyMode, .showEnemies]

/-- The bit of a FLAGS word that carries a feature: the table of 30_encoding.md R50. DEDUCED for bits 13 to 25 (the spec's
own recovery, R51; log entry 9). -/
def featureBit : Feature → Nat
  | .invincibility => 0
  | .spiritMode => 1
  | .allWeapons => 2
  | .unlimitedAmmo => 3
  | .infiniteLives => 4
  | .allKeys => 5
  | .allMap => 6
  | .bigHeadSesh => 7
  | .tinyEnemies => 8
  | .purdyColors => 9
  | .discoMode => 10
  | .warpLevel1 => 11
  | .warpLevel2 => 12
  | .warpLevel3 => 13
  | .warpLevel4 => 14
  | .warpLevel5 => 15
  | .warpLevel6 => 16
  | .warpLevel7 => 17
  | .warpLevel8 => 18
  | .warpLonghunter => 19
  | .warpMantis => 20
  | .warpTrex => 21
  | .warpCampaigner => 22
  | .showCredits => 23
  | .flyMode => 24
  | .showEnemies => 25

/-- The mask of a feature: the word with its one bit set (30_encoding.md R50). -/
def featureMask (f : Feature) : Word := 1#32 <<< featureBit f

/-- The features whose names begin `WARP_` (30_encoding.md R50). -/
def isWarp : Feature → Bool
  | .warpLevel1 | .warpLevel2 | .warpLevel3 | .warpLevel4 | .warpLevel5 | .warpLevel6 | .warpLevel7 | .warpLevel8 => true
  | .warpLonghunter | .warpMantis | .warpTrex | .warpCampaigner => true
  | .invincibility | .spiritMode | .allWeapons | .unlimitedAmmo | .infiniteLives | .allKeys | .allMap | .bigHeadSesh => false
  | .tinyEnemies | .purdyColors | .discoMode | .showCredits | .flyMode | .showEnemies => false

/-- Names joined by `|`: the OR of their masks (30_encoding.md R57). -/
def flagsOf : List Feature → Word
  | [] => 0#32
  | f :: fs => featureMask f ||| flagsOf fs

/-- A FLAGS word enables a feature when the feature's bit is 1 (30_encoding.md R49). -/
def enables (w : Word) (f : Feature) : Bool := w.getLsbD (featureBit f)

end Sys2Proof.Machine
end

