-- ==== Sys2Proof/Machine/Script.lean ====
section
/-! DEFINITION. Machine/Script.lean: a run (60_exceptions.md R106): the host presents the lines of a transaction script one
after another and samples each answer. The `@` forms are the host copying a word from an output back to the input; the block
has no feedback path (30_encoding.md R56). What the host has sampled is the host's, not the block's: it is an argument
here, no field of State. -/

namespace Sys2Proof.Machine

/-- What the host keeps of one line: its label, the command it presented, the outputs it sampled (30_encoding.md R56, R58). -/
structure Sample where
  label : Option Label
  instr : Instr
  answer : Answer
deriving DecidableEq, Repr

/-- The answer the host sampled from the line so labelled (30_encoding.md R56). -/
def sampledAt (l : Label) : List Sample → Option Answer
  | [] => none
  | x :: xs => if x.label = some l then some x.answer else sampledAt l xs

/-- The word an operand gives `din`, with what has been sampled so far (30_encoding.md R56, R57). `none` where the operand is
ill formed there (log entry 10). DESIGN CHOICE (log entry 14): names and `ALL` give the same word under every mnemonic, so
also as the PASSWORD operand of `DEC`, `DECT` or `decode`, where R57 is silent. -/
def operandWord (seen : List Sample) : Operand → Option Word
  | .num n => if n < 2 ^ 32 then some (BitVec.ofNat 32 n) else none
  | .names fs => if fs.isEmpty then none else some (flagsOf fs)
  | .all => some flagMask
  | .doutOf l => (sampledAt l seen).map Answer.dout
  | .permutedOf l => (sampledAt l seen).map Answer.permuted

/-- The operation a line's mnemonic or alias means, on an operand word (30_encoding.md R47, R57). -/
def instrOf : Mnemonic → Word → Instr
  | .enc, x => .enc x
  | .dec, x => .dec x
  | .enct, x => .enct x
  | .dect, x => .dect x
  | .encode, x => .enc x
  | .decode, x => .dec x

/-- A script executed top to bottom, each line one settled transaction (30_encoding.md R56), from what was sampled before;
the host's list is newest first. The run ends after the last line and holds nothing afterwards but the host's samples
(60_exceptions.md R106). -/
def runScript : Script → List Sample → State → Option (List Sample × State)
  | [], seen, s => some (seen, s)
  | l :: ls, seen, s =>
    match operandWord seen l.operand with
    | none => none
    | some x =>
      match exec (instrOf l.mnemonic x) s with
      | .next t => runScript ls (⟨l.label, instrOf l.mnemonic x, ⟨t.dout, t.permuted⟩⟩ :: seen) t
      | .fault _ => none
      | .refused _ => none

end Sys2Proof.Machine
end

