-- ==== Sys2Proof/Safety.lean ====
section
/-! DEFINITION. Safety.lean: the words claims use. A safe run is one in which every step answers a next state; the invariant
is that a settled state's outputs are `eval` of its inputs on every bit that is defined. -/

namespace Sys2Proof.Machine

/-- The step or the instruction goes on: it neither faults nor refuses (60_exceptions.md R99). -/
def completes (o : Host.Outcome State Fault Refusal) : Prop := ∃ t, o = .next t

/-- Two words agree on every bit outside `u`. -/
abbrev agreeOutside (u a b : Word) : Prop := a &&& ~~~u = b &&& ~~~u

/-- The outputs are `eval` of the inputs on every bit that depends on no undriven input bit (10_state.md R25;
70_reset_and_hazards.md R120). -/
abbrev State.outputsHold (s : State) : Prop :=
  agreeOutside (undrivenReach s.pins).dout s.dout (eval s.pins.op s.pins.din).dout ∧
  agreeOutside (undrivenReach s.pins).permuted s.permuted (eval s.pins.op s.pins.din).permuted

/-- The invariant: outputs sampled after `T_PD` hold `eval` of the inputs, and stay while the inputs stay
(10_state.md R25; 70_reset_and_hazards.md R119). -/
abbrev State.Inv (s : State) : Prop := s.phase = .settled → s.outputsHold

/-- The input ports of two states agree on every bit that is driven, and the same bits are driven in both. -/
abbrev samePinsWhereDriven (p q : Pins) : Prop :=
  p.opDriven = q.opDriven ∧ p.dinDriven = q.dinDriven ∧
  p.op &&& p.opDriven = q.op &&& q.opDriven ∧ p.din &&& p.dinDriven = q.din &&& q.dinDriven

/-- The two outputs as the host samples them. -/
def State.answer (s : State) : Answer := { dout := s.dout, permuted := s.permuted }

/-! ## Words for claims about the datapath -/

/-- Which input bit of `PERM_F` output bit `j` is (40_byte_permutation.md R64). -/
def srcF (j : Nat) : Nat := if j < 8 then j + 8 else if j < 16 then j + 16 else if j < 24 then j - 16 else j - 8

/-- Which output bit of `PERM_F` input bit `i` goes to (40_byte_permutation.md R64). -/
def dstF (i : Nat) : Nat := if i < 8 then i + 16 else if i < 16 then i - 8 else if i < 24 then i + 8 else i - 16

/-- The number of 1 bits of a word (40_byte_permutation.md R71, `popcount`). -/
def onesCount (w : Word) : Nat := ((List.range 32).filter fun i => w.getLsbD i).length

/-- The word with its four bytes in reverse order (44_laws.md R98). -/
def byteReverse (w : Word) : Word := ofBytes (byteAt 0 w) (byteAt 1 w) (byteAt 2 w) (byteAt 3 w)

/-- A function only moves bits: it commutes with every bitwise operation and keeps the number of 1 bits
(40_byte_permutation.md R71). -/
def movesBitsOnly (P : Word → Word) : Prop :=
  ∀ a b : Word, P (a &&& b) = P a &&& P b ∧ P (a ||| b) = P a ||| P b ∧ P (a ^^^ b) = P a ^^^ P b ∧
    P (~~~a) = ~~~(P a) ∧ onesCount (P a) = onesCount a

end Sys2Proof.Machine
end

