-- ==== Sys2Proof/Certificates/Slice0/Obligations.lean ====
section
/-! DEFINITION. Certificates/Slice0/Obligations.lean: the statements for the provers, in the order encoding, datapath,
operations, laws between operations, ports and time, scripts and names. Each docstring cites the rule it formalises. -/

open Sys2Proof Sys2Proof.Machine

/-! ## Encoding -/

/-- Decoding an encoded instruction gives it back, with its operand at every value (30_encoding.md R43, R47). -/
def Obligations.DecodeOfEncodeIsIdentity : Prop :=
  ∀ i : Instr, i.wellFormed = true →
    decode (encode i).toNat = .ok i ∧ decodeTableWord 40 (encode i).toNat = some i ∧ fetch (Pins.ofInstr i) = i

/-- No command word is illegal, and each has one meaning: what it decodes to encodes to it again (30_encoding.md R48). -/
def Obligations.EveryCommandWordIsLegal : Prop :=
  (∀ c : BitVec 34, ∃ i : Instr, decode c.toNat = .ok i ∧ i.wellFormed = true ∧ encode i = c) ∧
  (∀ (op : BitVec 2) (x : Word), ∃ i : Instr, i.op = op ∧ i.din = x)

/-- The fields of the command word: `t` in bit 33, `d` in bit 32, `din` whole below (30_encoding.md R43, R45). -/
def Obligations.CommandWordFields : Prop :=
  ∀ i : Instr,
    encode i = i.op ++ i.din ∧ (Pins.ofInstr i).command = encode i ∧ (encode i).extractLsb' 0 32 = i.din ∧
    ((encode i).getLsbD 33 = true ↔ i = .enct i.din ∨ i = .dect i.din) ∧
    ((encode i).getLsbD 32 = true ↔ i = .dec i.din ∨ i = .dect i.din)

/-- Exactly one row of the opcode map admits a command word, and it is the row of the instruction the decoder reads
(30_encoding.md R47, the match and mask values). -/
def Obligations.ExactlyOneRowAdmitsACommandWord : Prop :=
  ∀ c : BitVec 34, (opcodeRows.filter fun r => r.admits c).map OpcodeRow.mnemonic = [(decodeCommand c).mnemonic]

/-- Command words written out from the spec's column `C` decode to the transactions they stand for
(95_test_vectors.md V11, V24, V20, V33). -/
def Obligations.WrittenCommandWordsDecode : Prop :=
  decode 0x012345678 = .ok (.enc 0x12345678#32) ∧ decode 0x191CCD184 = .ok (.dec 0x91CCD184#32) ∧
  decode 0x2ABCDEF01 = .ok (.enct 0xABCDEF01#32) ∧ decode 0x3075BCD15 = .ok (.dect 0x075BCD15#32)

/-- THE MODEL'S CHOICE (log entry 8): a number with a bit above bit 33 is rejected by name. The spec has no such word: "one
fixed length, 34 bits" (30_encoding.md R43). -/
def Obligations.LongerWordsAreRejected : Prop :=
  ∀ n : Nat, 2 ^ 34 ≤ n → decode n = .error .beyondCommandWord

/-- The opcode map: what each `op` value computes on both outputs (30_encoding.md R47). -/
def Obligations.OpcodeMapOutputs : Prop :=
  ∀ x : Word,
    eval 0b00#2 x = { dout := permF x ^^^ 0xA5B4C3D2#32, permuted := permF x } ∧
    eval 0b01#2 x = { dout := permI (x ^^^ 0xA5B4C3D2#32), permuted := x ^^^ 0xA5B4C3D2#32 } ∧
    eval 0b10#2 x = { dout := permF (x &&& 0x03FFFFFF#32) ^^^ 0xA5B4C3D2#32, permuted := permF (x &&& 0x03FFFFFF#32) } ∧
    eval 0b11#2 x = { dout := permI (x ^^^ 0xA5B4C3D2#32) &&& 0x03FFFFFF#32, permuted := x ^^^ 0xA5B4C3D2#32 } ∧
    encode (.enc x) = 0b00#2 ++ x ∧ encode (.dec x) = 0b01#2 ++ x ∧ encode (.enct x) = 0b10#2 ++ x ∧ encode (.dect x) = 0b11#2 ++ x

/-- The two `op` bits act independently: `d = op[0]` chooses the function, `t = op[1]` whether the FLAGS-side word is masked,
the operand of an encode, the result of a decode; with `t = 0` nothing is masked (30_encoding.md R46). -/
def Obligations.OpBitsActIndependently : Prop :=
  ∀ (op : BitVec 2) (x : Word),
    eval op x =
      if op.getLsbD 0 then
        { dout := if op.getLsbD 1 then permI (x ^^^ 0xA5B4C3D2#32) &&& 0x03FFFFFF#32 else permI (x ^^^ 0xA5B4C3D2#32)
          permuted := x ^^^ 0xA5B4C3D2#32 }
      else
        { dout := permF (if op.getLsbD 1 then x &&& 0x03FFFFFF#32 else x) ^^^ 0xA5B4C3D2#32
          permuted := permF (if op.getLsbD 1 then x &&& 0x03FFFFFF#32 else x) }

/-! ## The datapath -/

/-- In each direction the four terms occupy four different byte positions, each term no bit outside its own, so no bit
position receives a 1 from two terms, and their OR is their sum and their XOR (40_byte_permutation.md R61). -/
def Obligations.TermsOccupyDifferentBytes : Prop :=
  ∀ v : Word,
    (let esi := (v >>> 24) <<< 8
     let edx := (v &&& 0x00FF0000#32) <<< 8
     let dhTerm := (v &&& 0x0000FF00#32) >>> 8
     let dlTerm := (v &&& 0x000000FF#32) <<< 16
     esi &&& ~~~0x0000FF00#32 = 0#32 ∧ edx &&& ~~~0xFF000000#32 = 0#32 ∧ dhTerm &&& ~~~0x000000FF#32 = 0#32 ∧
     dlTerm &&& ~~~0x00FF0000#32 = 0#32 ∧
     esi &&& edx = 0#32 ∧ esi &&& dhTerm = 0#32 ∧ esi &&& dlTerm = 0#32 ∧ edx &&& dhTerm = 0#32 ∧
     edx &&& dlTerm = 0#32 ∧ dhTerm &&& dlTerm = 0#32 ∧
     permF v = esi + edx + dhTerm + dlTerm ∧ permF v = esi ^^^ edx ^^^ dhTerm ^^^ dlTerm) ∧
    (let esi := (v >>> 8) <<< 24
     let edx := (v >>> 8) &&& 0x00FF0000#32
     let dhTerm := (v <<< 8) &&& 0x0000FF00#32
     let dlTerm := (v >>> 16) &&& 0x000000FF#32
     esi &&& ~~~0xFF000000#32 = 0#32 ∧ edx &&& ~~~0x00FF0000#32 = 0#32 ∧ dhTerm &&& ~~~0x0000FF00#32 = 0#32 ∧
     dlTerm &&& ~~~0x000000FF#32 = 0#32 ∧
     esi &&& edx = 0#32 ∧ esi &&& dhTerm = 0#32 ∧ esi &&& dlTerm = 0#32 ∧ edx &&& dhTerm = 0#32 ∧
     edx &&& dlTerm = 0#32 ∧ dhTerm &&& dlTerm = 0#32 ∧
     permI v = esi + edx + dhTerm + dlTerm ∧ permI v = esi ^^^ edx ^^^ dhTerm ^^^ dlTerm)

/-- The byte map of `PERM_F`: `B3 B2 B1 B0` becomes `B2 B0 B3 B1` (40_byte_permutation.md R63). -/
def Obligations.PermFMovesBytes : Prop :=
  (∀ b3 b2 b1 b0 : Byte, permF (ofBytes b3 b2 b1 b0) = ofBytes b2 b0 b3 b1) ∧
  (∀ v : Word, byteAt 0 (permF v) = byteAt 1 v ∧ byteAt 1 (permF v) = byteAt 3 v ∧
    byteAt 2 (permF v) = byteAt 0 v ∧ byteAt 3 (permF v) = byteAt 2 v) ∧
  permF 0x03FFFFFF#32 = 0xFFFF03FF#32 ∧ 0xFFFF03FF#32 ^^^ 0xA5B4C3D2#32 = 0x5A4BC02D#32

/-- The bit map of `PERM_F`: output bit `j` is input bit `src_F(j)`, input bit `i` goes to output bit `dst_F(i)`, and the two
maps are inverse bijections of 0 to 31 (40_byte_permutation.md R64). -/
def Obligations.PermFMovesBits : Prop :=
  ∀ (f : Word) (j : Nat), j < 32 →
    (permF f).getLsbD j = f.getLsbD (srcF j) ∧ (permF f).getLsbD (dstF j) = f.getLsbD j ∧
    srcF j < 32 ∧ dstF j < 32 ∧ srcF (dstF j) = j ∧ dstF (srcF j) = j

/-- The byte map and the bit map of `PERM_I` (40_byte_permutation.md R66, R67). -/
def Obligations.PermIMovesBytesAndBits : Prop :=
  (∀ q3 q2 q1 q0 : Byte, permI (ofBytes q3 q2 q1 q0) = ofBytes q1 q3 q0 q2) ∧
  (∀ (p : Word) (i : Nat), i < 32 →
    (permI p).getLsbD i = p.getLsbD (dstF i) ∧ (permI p).getLsbD (srcF i) = p.getLsbD i)

/-- `PERM_I` is the two-sided inverse of `PERM_F`, and both are bijections (40_byte_permutation.md R68). -/
def Obligations.PermutationsAreInverse : Prop :=
  (∀ x : Word, permI (permF x) = x ∧ permF (permI x) = x) ∧ Function.Bijective permF ∧ Function.Bijective permI

/-- `PERM_F` has order 4; twice it reverses the bytes, three times it is `PERM_I` (40_byte_permutation.md R69). -/
def Obligations.PermFHasOrderFour : Prop :=
  (∀ x : Word, permF (permF (permF (permF x))) = x ∧ permF (permF (permF x)) = permI x) ∧
  (∀ b3 b2 b1 b0 : Byte, permF (permF (ofBytes b3 b2 b1 b0)) = ofBytes b0 b1 b2 b3) ∧
  (∃ x : Word, permF x ≠ x) ∧ (∃ x : Word, permF (permF x) ≠ x) ∧ (∃ x : Word, permF (permF (permF x)) ≠ x) ∧
  permF ≠ permI ∧ permF 0x03020100#32 = 0x02000301#32 ∧ permF 0x02000301#32 = 0x00010203#32 ∧
  permI 0x03020100#32 = 0x01030002#32

/-- Both permutations commute with every bitwise operation and keep the number of 1 bits, so encode is an XOR on the FLAGS
side followed by the permutation (40_byte_permutation.md R71). -/
def Obligations.PermutationsMoveBitsOnly : Prop :=
  movesBitsOnly permF ∧ movesBitsOnly permI ∧ permI key = 0xC3A5D2B4#32 ∧
  ∀ f : Word, permF f ^^^ key = permF (f ^^^ permI key)

/-- The fixed points of both permutations are the words of four equal bytes, one for each byte
(40_byte_permutation.md R72). -/
def Obligations.FixedPointsHaveEqualBytes : Prop :=
  (∀ x : Word, (permF x = x ↔ ∃! b : Byte, x = ofBytes b b b b) ∧ (permI x = x ↔ ∃! b : Byte, x = ofBytes b b b b)) ∧
  (∀ b c : Byte, ofBytes b b b b = ofBytes c c c c → b = c)

/-- `XORK` inverts the sixteen bits where the key has a 1 and no other (41_fixed_xor_cipher.md R73; 30_encoding.md R54). -/
def Obligations.XorkInvertsTheKeyBits : Prop :=
  (∀ (v : Word) (j : Nat), j < 32 →
    (xork v).getLsbD j = (v.getLsbD j ^^ decide (j ∈ [1, 4, 6, 7, 8, 9, 14, 15, 18, 20, 21, 23, 24, 26, 29, 31]))) ∧
  (∀ v : Word, xork v = v ^^^ 0xA5B4C3D2#32) ∧
  key = ofBytes 0xA5#8 0xB4#8 0xC3#8 0xD2#8 ∧ xork 0#32 = 0xA5B4C3D2#32 ∧ xork 0xA5B4C3D2#32 = 0#32 ∧
  xork 0xFFFFFFFF#32 = 0x5A4B3C2D#32 ∧ xork 0xFFFF03FF#32 = 0x5A4BC02D#32

/-- `XORK` is an involution, hence a bijection and its own inverse (41_fixed_xor_cipher.md R74). -/
def Obligations.XorkIsAnInvolution : Prop :=
  (∀ v : Word, xork (xork v) = v) ∧ Function.Bijective xork

/-- `XORK` has no fixed point, changes exactly 16 bits, and does not commute with the permutation
(41_fixed_xor_cipher.md R75). -/
def Obligations.XorkChangesSixteenBits : Prop :=
  ∀ v : Word, xork v ≠ v ∧ onesCount (xork v ^^^ v) = 16 ∧ permF (xork v) = permF v ^^^ permF key ∧
    permF (xork v) = permF v ^^^ 0xB4D2A5C3#32 ∧ permF (xork v) ≠ xork (permF v)

/-- Right shifts are logical: for a word with bit 31 set the first term of the encode stays within byte position 1, where an
arithmetic shift would set byte positions 2 and 3 (70_reset_and_hazards.md R116). -/
def Obligations.EncodeShiftsAreLogical : Prop :=
  ∀ (f : Word) (s : State), f.getLsbD 31 = true →
    f >>> 24 ≤ 0x000000FF#32 ∧ (f >>> 24) <<< 8 ≤ 0x0000FF00#32 ∧
    (BitVec.sshiftRight f 24) <<< 8 &&& 0xFFFF0000#32 = 0xFFFF0000#32 ∧
    ∃ t, exec (.enc f) s = .next t ∧
      (t.permuted = t.permuted ||| ((BitVec.sshiftRight f 24) <<< 8) ↔ byteAt 0 f = 0xFF#8 ∧ byteAt 2 f = 0xFF#8)

/-! ## The operations -/

/-- `ENC`: encoding, step list, next state and corner cases (42_encode.md R79). The next state differs from the old one in
the ports and their settling alone. THE MODEL'S CHOICE in the next state: the pins left carrying the driven pair, the
phase settled and the draw counter kept (log entries 1, 2, 4 and 7). -/
def Obligations.EncRunsItsSteps : Prop :=
  ∀ (din : Word) (s : State),
    encode (.enc din) = 0b00#2 ++ din ∧
    (let esi := (din >>> 24) <<< 8
     let edx := (din &&& 0x00FF0000#32) <<< 8
     let dhTerm := (din &&& 0x0000FF00#32) >>> 8
     let dlTerm := (din &&& 0x000000FF#32) <<< 16
     let p := esi ||| edx ||| dhTerm ||| dlTerm
     exec (.enc din) s = .next { s with
       pins := Pins.drive 0b00#2 din, dout := p ^^^ 0xA5B4C3D2#32, permuted := p, phase := .settled } ∧
     (p ^^^ 0xA5B4C3D2#32).extractLsb' 10 6 = din.extractLsb' 26 6 ^^^ 0b110000#6 ∧
     (din = 0#32 → p = 0#32 ∧ p ^^^ 0xA5B4C3D2#32 = 2780087250#32) ∧
     (din = 0xFFFFFFFF#32 → p = 0xFFFFFFFF#32 ∧ p ^^^ 0xA5B4C3D2#32 = 0x5A4B3C2D#32) ∧
     (din = 0x03FFFFFF#32 → p = 0xFFFF03FF#32 ∧ p ^^^ 0xA5B4C3D2#32 = 1514913837#32))

/-- `DEC`: encoding, step list, next state and corner cases (43_decode.md R83). THE MODEL'S CHOICE in the next state: the pins left carrying the driven pair, the
phase settled and the draw counter kept (log entries 1, 2, 4 and 7). -/
def Obligations.DecRunsItsSteps : Prop :=
  ∀ (din : Word) (s : State),
    encode (.dec din) = 0b01#2 ++ din ∧
    (let p := din ^^^ 0xA5B4C3D2#32
     let esi := (p >>> 8) <<< 24
     let edx := (p >>> 8) &&& 0x00FF0000#32
     let dhTerm := (p <<< 8) &&& 0x0000FF00#32
     let dlTerm := (p >>> 16) &&& 0x000000FF#32
     let f := esi ||| edx ||| dhTerm ||| dlTerm
     exec (.dec din) s = .next { s with
       pins := Pins.drive 0b01#2 din, dout := f, permuted := p, phase := .settled } ∧
     f.extractLsb' 26 6 = din.extractLsb' 10 6 ^^^ 0b110000#6 ∧
     (din = 0xA5B4C3D2#32 → p = 0#32 ∧ f = 0#32) ∧
     (din = 0#32 → p = 0xA5B4C3D2#32 ∧ f = 0xC3A5D2B4#32 ∧ f.extractLsb' 26 6 = 0b110000#6) ∧
     (din = 1514913837#32 → p = 0xFFFF03FF#32 ∧ f = 0x03FFFFFF#32))

/-- `ENCT`: `ENC` of the operand confined to its 26 named bits; every result is a clean password, and the six upper operand
bits are ignored (42_encode.md R80). THE MODEL'S CHOICE in the next state: the pins left carrying the driven pair, the
phase settled and the draw counter kept (log entries 1, 2, 4 and 7). -/
def Obligations.EnctTruncatesItsOperand : Prop :=
  ∀ (din : Word) (s : State),
    encode (.enct din) = 0b10#2 ++ din ∧
    ∃ t, exec (.enct din) s = .next t ∧
      t = { s with
        pins := Pins.drive 0b10#2 din, dout := permF (din &&& 0x03FFFFFF#32) ^^^ 0xA5B4C3D2#32,
        permuted := permF (din &&& 0x03FFFFFF#32), phase := .settled } ∧
      t.answer = encAnswer (din &&& 0x03FFFFFF#32) ∧
      (din ≤ 0x03FFFFFF#32 → t.answer = encAnswer din) ∧
      t.permuted.extractLsb' 10 6 = 0#6 ∧ t.dout.extractLsb' 10 6 = 0b110000#6 ∧ cleanPassword t.dout = true ∧
      (∀ x : Word, x.extractLsb' 0 26 = din.extractLsb' 0 26 → enctAnswer x = t.answer) ∧
      (din = 0xFFFFFFFF#32 → t.permuted = 0xFFFF03FF#32 ∧ t.dout = 1514913837#32 ∧ (encAnswer din).dout = 1514880045#32)

/-- `DECT`: `DEC` with `dout`, not `permuted`, confined to its 26 named bits; clean passwords lose nothing, and passwords that
differ in bits 10 to 15 only give one `dout` and different `permuted` (43_decode.md R84). THE MODEL'S CHOICE in the next state: the pins left carrying the driven pair, the
phase settled and the draw counter kept (log entries 1, 2, 4 and 7). -/
def Obligations.DectTruncatesItsResult : Prop :=
  ∀ (din : Word) (s : State),
    encode (.dect din) = 0b11#2 ++ din ∧
    ∃ t, exec (.dect din) s = .next t ∧
      t = { s with
        pins := Pins.drive 0b11#2 din, dout := permI (din ^^^ 0xA5B4C3D2#32) &&& 0x03FFFFFF#32,
        permuted := din ^^^ 0xA5B4C3D2#32, phase := .settled } ∧
      t.dout = (decAnswer din).dout &&& 0x03FFFFFF#32 ∧ t.permuted = (decAnswer din).permuted ∧
      t.dout.extractLsb' 26 6 = 0#6 ∧ (cleanPassword din = true → t.answer = decAnswer din) ∧
      (∀ x : Word, x &&& 0xFFFF03FF#32 = din &&& 0xFFFF03FF#32 →
        (dectAnswer x).dout = t.dout ∧ (x ≠ din → (dectAnswer x).permuted ≠ t.permuted)) ∧
      (din = 0#32 → t.permuted = 0xA5B4C3D2#32 ∧ t.dout = 61199028#32)

/-- `ENC` carries the don't-care bits 26 to 31 to bits 10 to 15 (42_encode.md R82). -/
def Obligations.EncCarriesTheDontCareBits : Prop :=
  (∀ (din : Word) (s : State), ∃ t, exec (.enc din) s = .next t ∧
    t.permuted.extractLsb' 10 6 = din.extractLsb' 26 6 ∧
    t.dout.extractLsb' 10 6 = din.extractLsb' 26 6 ^^^ 0b110000#6 ∧
    ∀ k, k < 6 → t.dout.getLsbD (10 + k) = (din.getLsbD (26 + k) ^^ key.getLsbD (10 + k))) ∧
  encAnswer 0xFC000000#32 = { dout := 2780053458#32, permuted := 0x0000FC00#32 }

/-- `DEC` delivers bits 26 to 31, none masked (43_decode.md R85). -/
def Obligations.DecDeliversTheDontCareBits : Prop :=
  ∀ (din : Word) (s : State), ∃ t, exec (.dec din) s = .next t ∧
    t.dout.extractLsb' 26 6 = din.extractLsb' 10 6 ^^^ 0b110000#6 ∧
    ∀ k, k < 6 → t.dout.getLsbD (26 + k) = (din.getLsbD (10 + k) ^^ key.getLsbD (10 + k))

/-- Nothing raises, faults or refuses: every instruction and every step answers a next state (60_exceptions.md R99). -/
def Obligations.NothingFaultsOrRefuses : Prop :=
  (∀ (i : Instr) (s : State), completes (exec i s)) ∧ ∀ s : State, completes (step s)

/-- In every operation `permuted` is `PERM_F` of the FLAGS-side word before any output mask, and `permuted ^ KEY` is the
PASSWORD-side word; a byte alone lands in its destination byte (44_laws.md R90; 41_fixed_xor_cipher.md R78). -/
def Obligations.PermutedIsTheWordBetweenTheStages : Prop :=
  (∀ (x : Word) (s : State), ∃ e d et dt,
    exec (.enc x) s = .next e ∧ exec (.dec x) s = .next d ∧ exec (.enct x) s = .next et ∧ exec (.dect x) s = .next dt ∧
    e.permuted = permF x ∧ et.permuted = permF (x &&& 0x03FFFFFF#32) ∧
    d.permuted = permF d.dout ∧ dt.permuted = permF d.dout ∧
    e.permuted ^^^ key = e.dout ∧ et.permuted ^^^ key = et.dout ∧ d.permuted ^^^ key = x ∧ dt.permuted ^^^ key = x) ∧
  (encAnswer 0xAA000000#32).permuted = 0x0000AA00#32 ∧ (encAnswer 0x00AA0000#32).permuted = 0xAA000000#32 ∧
  (encAnswer 0x0000AA00#32).permuted = 0x000000AA#32 ∧ (encAnswer 0x000000AA#32).permuted = 0x00AA0000#32

/-! ## Laws between the operations -/

/-- Round trip: a `DEC` of what an `ENC` answered returns the FLAGS word, on the whole 32-bit space (44_laws.md R87). -/
def Obligations.DecAfterEncReturnsTheFlags : Prop :=
  ∀ (f : Word) (s : State), ∃ t u, exec (.enc f) s = .next t ∧ exec (.dec t.dout) t = .next u ∧
    u.dout = f ∧ u.permuted = t.permuted

/-- Reverse round trip: an `ENC` of what a `DEC` answered returns the password (44_laws.md R88). -/
def Obligations.EncAfterDecReturnsThePassword : Prop :=
  ∀ (p : Word) (s : State), ∃ t u, exec (.dec p) s = .next t ∧ exec (.enc t.dout) t = .next u ∧
    u.dout = p ∧ u.permuted = t.permuted

/-- `ENC` and `DEC` are bijections of the 32-bit space and each other's inverse; `ENCT` and `DECT` are not bijections
(44_laws.md R89). -/
def Obligations.EncAndDecAreBijections : Prop :=
  Function.Bijective (fun f => (encAnswer f).dout) ∧ Function.Bijective (fun p => (decAnswer p).dout) ∧
  Function.LeftInverse (fun p => (decAnswer p).dout) (fun f => (encAnswer f).dout) ∧
  Function.RightInverse (fun p => (decAnswer p).dout) (fun f => (encAnswer f).dout) ∧
  ¬ Function.Bijective (fun f => (enctAnswer f).dout) ∧ ¬ Function.Bijective (fun p => (dectAnswer p).dout)

/-- Bit independence of encode: each `dout` bit depends on one `din` bit, and changing one bit of the operand changes one bit
of the result (44_laws.md R91). -/
def Obligations.EncodeBitsAreIndependent : Prop :=
  ∀ (f : Word) (j : Nat), j < 32 →
    (encAnswer f).dout.getLsbD j = (f.getLsbD (srcF j) ^^ key.getLsbD j) ∧
    (encAnswer (f ^^^ (1#32 <<< j))).dout = (encAnswer f).dout ^^^ (1#32 <<< dstF j)

/-- Bit independence of decode (44_laws.md R92). -/
def Obligations.DecodeBitsAreIndependent : Prop :=
  ∀ (p : Word) (i : Nat), i < 32 →
    (decAnswer p).dout.getLsbD i = (p.getLsbD (dstF i) ^^ key.getLsbD (dstF i)) ∧
    (decAnswer (p ^^^ (1#32 <<< i))).dout = (decAnswer p).dout ^^^ (1#32 <<< srcF i)

/-- The truncating operations against the plain ones, and which of the four compositions return the operand
(44_laws.md R94). -/
def Obligations.TruncatingRoundTrips : Prop :=
  ∀ f p : Word,
    (enctAnswer f).dout = (encAnswer (f &&& 0x03FFFFFF#32)).dout ∧
    (dectAnswer p).dout = (decAnswer p).dout &&& 0x03FFFFFF#32 ∧
    (dectAnswer (encAnswer f).dout).dout = f &&& 0x03FFFFFF#32 ∧
    (decAnswer (enctAnswer f).dout).dout = f &&& 0x03FFFFFF#32 ∧
    (dectAnswer (enctAnswer f).dout).dout = f &&& 0x03FFFFFF#32 ∧
    (decAnswer (encAnswer f).dout).dout = f ∧
    ((dectAnswer (encAnswer f).dout).dout = f ↔ f ≤ 0x03FFFFFF#32) ∧
    ((decAnswer (enctAnswer f).dout).dout = f ↔ f ≤ 0x03FFFFFF#32) ∧
    ((dectAnswer (enctAnswer f).dout).dout = f ↔ f ≤ 0x03FFFFFF#32)

/-- Clean passwords: those of 26-bit FLAGS words, one for each; those with bits 15 to 10 equal `0b110000`; those on which
`DEC` and `DECT` agree (44_laws.md R95). -/
def Obligations.CleanPasswordsAreTheEncodedFlags : Prop :=
  (∀ p : Word,
    (cleanPassword p = true ↔ ∃ f : Word, f ≤ 0x03FFFFFF#32 ∧ (encAnswer f).dout = p) ∧
    (cleanPassword p = true ↔ ∃! f : BitVec 26, (encAnswer (f.setWidth 32)).dout = p) ∧
    (cleanPassword p = true ↔ p.extractLsb' 10 6 = 0b110000#6) ∧
    (cleanPassword p = true ↔ p &&& 0x0000FC00#32 = 0x0000C000#32) ∧
    (cleanPassword p = true ↔ (decAnswer p).dout = (dectAnswer p).dout)) ∧
  (∀ f g : BitVec 26, (encAnswer (f.setWidth 32)).dout = (encAnswer (g.setWidth 32)).dout → f = g) ∧
  cleanPassword 0x5A4BC02D#32 = true ∧ cleanPassword 0xA5B4C3D2#32 = true ∧ cleanPassword 0xDAB4C32A#32 = true ∧
  byteAt 1 0x5A4BC02D#32 = 0xC0#8 ∧ byteAt 1 0xA5B4C3D2#32 = 0xC3#8 ∧ byteAt 1 0xDAB4C32A#32 = 0xC3#8

/-- Re-encoding a truncated decode replaces bits 15 to 10 of the password; it returns the password exactly when that is clean
(44_laws.md R96). -/
def Obligations.ReencodingATruncatedDecode : Prop :=
  ∀ p : Word, (encAnswer (dectAnswer p).dout).dout = (p &&& 0xFFFF03FF#32) ||| 0x0000C000#32 ∧
    ((encAnswer (dectAnswer p).dout).dout = p ↔ cleanPassword p = true)

/-- Differences: the key cancels, and the number of differing bits is kept (44_laws.md R97). -/
def Obligations.DifferencesCancelTheKey : Prop :=
  ∀ a b : Word,
    (encAnswer a).dout ^^^ (encAnswer b).dout = permF (a ^^^ b) ∧
    (decAnswer a).dout ^^^ (decAnswer b).dout = permI (a ^^^ b) ∧
    (encAnswer a).dout = permF a ^^^ (encAnswer 0#32).dout ∧ (decAnswer a).dout = permI a ^^^ (decAnswer 0#32).dout ∧
    (encAnswer 0#32).dout = 0xA5B4C3D2#32 ∧ (decAnswer 0#32).dout = 0xC3A5D2B4#32 ∧
    onesCount (a ^^^ b) = onesCount ((encAnswer a).dout ^^^ (encAnswer b).dout)

/-- Powers of `ENC` as a run of transactions, each fed the last answer: two reverse the bytes and XOR `0x11666611`, three
equal one `DEC`, four return the operand (44_laws.md R98). -/
def Obligations.PowersOfEnc : Prop :=
  (∀ (x : Word) (s : State), ∃ a b c d e,
    exec (.enc x) s = .next a ∧ exec (.enc a.dout) a = .next b ∧ exec (.enc b.dout) b = .next c ∧
    exec (.enc c.dout) c = .next d ∧ exec (.dec x) s = .next e ∧
    b.dout = byteReverse x ^^^ 0x11666611#32 ∧ c.dout = e.dout ∧ d.dout = x) ∧
  (∀ b3 b2 b1 b0 : Byte, byteReverse (ofBytes b3 b2 b1 b0) = ofBytes b0 b1 b2 b3) ∧
  0xA5#8 ^^^ 0xB4#8 ^^^ 0xC3#8 ^^^ 0xD2#8 = 0#8 ∧
  (∃ x : Word, (encAnswer (encAnswer x).dout).dout ≠ x) ∧
  (∃ x : Word, (encAnswer (encAnswer x).dout).dout ≠ (encAnswer x).dout)

/-! ## The ports, time and the run -/

/-- A step runs the decoded instruction: where the ports are driven, held longer than `T_PD`, and their command word decodes
to a well-formed `i`, a step is `exec i` (10_state.md R25; 20_memory.md R41). Nothing is added: no program counter moves
(10_state.md R21). THE MODEL'S CHOICE is that such a step is the whole transaction `exec i`, and that "held longer than
`T_PD`" is no sample left within it (log entries 2, 3 and 4). -/
def Obligations.StepRunsTheDecodedInstruction : Prop :=
  ∀ (s : State) (i : Instr), s.phase.remaining = 0 → s.pins.allDriven = true → i.wellFormed = true →
    decode s.pins.command.toNat = .ok i → step s = exec i s

/-- A command word placed on the ports of any state runs at the very next step (log entry 3). -/
def Obligations.PlacedCommandRunsNext : Prop :=
  ∀ (s : State) (i : Instr), step (s.withFetchWord 40 (encode i).toNat) = exec i s

/-- Once the inputs are driven and held longer than `T_PD`, the outputs hold `eval` of them, which is the four operation
rules; the inputs stay (10_state.md R25). THE MODEL'S CHOICE is that "held" is no sample left within `T_PD`, that the sample
completes the transaction and settles the phase, and that no free value is drawn (log entries 2, 4 and 7). -/
def Obligations.SettledOutputsAreEval : Prop :=
  (∀ s : State, s.phase.remaining = 0 → s.pins.allDriven = true →
    ∃ t, step s = .next t ∧ t.answer = eval s.pins.op s.pins.din ∧ t.pins = s.pins ∧ t.phase = .settled ∧ t.draws = s.draws) ∧
  (∀ x : Word, eval 0b00#2 x = encAnswer x ∧ eval 0b01#2 x = decAnswer x ∧ eval 0b10#2 x = enctAnswer x ∧
    eval 0b11#2 x = dectAnswer x)

/-- Presenting the same transaction again, any number of times, gives the same outputs (20_memory.md R37). THE MODEL'S CHOICE:
that presenting the pins already there is no change of an input and restarts no settling (log entry 4), and that the whole
state, not the outputs alone, is the same (log entries 2 and 7). -/
def Obligations.RepeatedTransactionsAgree : Prop :=
  ∀ (i : Instr) (s : State), ∃ t, exec i s = .next t ∧ exec i t = .next t ∧ t.present (Pins.ofInstr i) = t ∧
    ∀ k : Nat, Sys2Proof.core.run k t = .next t

/-- Transactions do not interact: whatever the ports carried before, whatever was sampled and drawn, a transaction answers
`eval` of its own command (20_memory.md R39) and leaves the inputs at it (the model's choice, log entry 2). -/
def Obligations.TransactionsDoNotInteract : Prop :=
  ∀ (i : Instr) (before : List Instr) (s : State),
    ∃ t u v, before.foldlM (fun a j => match exec j a with | .next b => some b | .fault _ => none | .refused _ => none) s = some t ∧
      exec i t = .next u ∧ exec i s = .next v ∧ u.answer = v.answer ∧ u.pins = v.pins ∧ u.answer = eval i.op i.din

/-- Settling: after the host presents a transaction and takes one sample more than fall within `T_PD`, the outputs are those
of the atomic transaction, and they stay while the inputs stay (70_reset_and_hazards.md R119). THE MODEL'S CHOICE is that
time is counted in samples (log entry 4). -/
def Obligations.HeldInputsSettleToTheTransaction : Prop :=
  ∀ (s : State) (i : Instr), ∃ t,
    Sys2Proof.core.run ((s.present (Pins.ofInstr i)).phase.remaining + 1) (s.present (Pins.ofInstr i)) = .next t ∧
    t.answer = eval i.op i.din ∧ t.pins = Pins.ofInstr i ∧ t.phase = .settled ∧
    ∀ k : Nat, Sys2Proof.core.run k t = .next t

/-- A change of an input makes the outputs any value at once, and each sample within `T_PD` draws them anew; the inputs stay
(70_reset_and_hazards.md R119). THE MODEL'S CHOICE: the counter and the count of samples (log entries 4 and 7), and that any
difference of the pins is a change, an undriven bit's stored value included (log entry 15). -/
def Obligations.UnsettledOutputsAreFree : Prop :=
  (∀ (s : State) (n : Nat), s.phase = .settling (n + 1) →
    step s = .next { s with dout := Config.freeDout s.draws, permuted := Config.freePermuted s.draws,
                            phase := .settling n, draws := s.draws + 1 }) ∧
  (∀ (s : State) (p : Pins), p ≠ s.pins →
    s.present p = { pins := p, dout := Config.freeDout s.draws, permuted := Config.freePermuted s.draws,
                    phase := .settling (Config.samplesWithinDelay s.draws), draws := s.draws + 1 })

/-- Undriven inputs: a settled sample is any value on exactly the output bits that depend on an undriven input bit, and `eval`
on the others (70_reset_and_hazards.md R120). Bit by bit: `op[0]` reaches every bit; `op[1]` six bits of each direction;
a `din` bit the output bits it is carried to. Which draw the free bits take is the model's (log entries 5 and 7). -/
def Obligations.UndrivenBitsReachExactlyTheirOutputs : Prop :=
  ∀ (s : State), s.phase.remaining = 0 → s.pins.allDriven = false →
    ∃ t, step s = .next t ∧ t.pins = s.pins ∧ ∀ j : Nat, j < 32 →
      let known : Nat → Bool := fun i => s.pins.dinDriven.getLsbD i
      let dKnown := s.pins.opDriven.getLsbD 0
      let tKnown := s.pins.opDriven.getLsbD 1
      let e := eval s.pins.op s.pins.din
      let doutDefined : Bool :=
        match s.pins.op.getLsbD 0, s.pins.op.getLsbD 1 with
        | false, false => known (srcF j) && (tKnown || !(decide (10 ≤ j ∧ j < 16)))
        | false, true => (known (srcF j) || decide (26 ≤ srcF j)) && (tKnown || !(decide (10 ≤ j ∧ j < 16)))
        | true, false => known (dstF j) && (tKnown || !(decide (26 ≤ j)))
        | true, true => (known (dstF j) || decide (26 ≤ j)) && (tKnown || !(decide (26 ≤ j)))
      let permutedDefined : Bool :=
        match s.pins.op.getLsbD 0, s.pins.op.getLsbD 1 with
        | false, false => known (srcF j) && (tKnown || !(decide (10 ≤ j ∧ j < 16)))
        | false, true => (known (srcF j) || decide (26 ≤ srcF j)) && (tKnown || !(decide (10 ≤ j ∧ j < 16)))
        | true, _ => known j
      t.dout.getLsbD j = (if dKnown && doutDefined then e.dout.getLsbD j else (Config.freeDout s.draws).getLsbD j) ∧
      t.permuted.getLsbD j =
        (if dKnown && permutedDefined then e.permuted.getLsbD j else (Config.freePermuted s.draws).getLsbD j)

/-- What an undriven input bit is stored as makes no difference to any output (70_reset_and_hazards.md R120; log entry 5).
THE MODEL'S CHOICE on the free bits: they agree because the two states have the same draw counter, and equal counters draw
equal free values; that is no fact of the hardware (log entry 7). This is about samples of two held states; `State.present`
does take a different stored value for a change of the inputs (log entry 15). Only the agreement on the defined bits is R120's. -/
def Obligations.UndrivenValuesAreNeverRead : Prop :=
  ∀ s s' : State, samePinsWhereDriven s.pins s'.pins → s.phase.remaining = s'.phase.remaining → s.draws = s'.draws →
    ∃ t t', step s = .next t ∧ step s' = .next t' ∧ t.answer = t'.answer ∧ t.phase.remaining = t'.phase.remaining ∧
      t.draws = t'.draws ∧ samePinsWhereDriven t.pins t'.pins

/-- Input skew: `op` and `din` changed in either order, with an intermediate pair on the ports between them, define the one
transaction of the pair that is held (70_reset_and_hazards.md R121). THE MODEL'S CHOICE is that time is counted in samples
(log entry 4). -/
def Obligations.SkewedInputsDefineTheHeldPair : Prop :=
  ∀ (s : State) (i : Instr),
    let a := (s.presentOp i.op).presentDin i.din
    let b := (s.presentDin i.din).presentOp i.op
    ∃ t u, Sys2Proof.core.run (a.phase.remaining + 1) a = .next t ∧ Sys2Proof.core.run (b.phase.remaining + 1) b = .next u ∧
      t.answer = eval i.op i.din ∧ u.answer = eval i.op i.din ∧ t.pins = Pins.ofInstr i ∧ u.pins = Pins.ofInstr i

/-- Power-up: no input bit is driven, the outputs are any value and a sample draws any value again, and the first transaction
answers as any other does (70_reset_and_hazards.md R113, R114). THE MODEL'S CHOICE is the counter and its reset value
(log entries 6 and 7). -/
def Obligations.PowerUpOutputsAreFree : Prop :=
  State.reset.pins.opDriven = 0#2 ∧ State.reset.pins.dinDriven = 0#32 ∧
  State.reset.dout = Config.freeDout 0 ∧ State.reset.permuted = Config.freePermuted 0 ∧
  (∃ t, step State.reset = .next t ∧ t.dout = Config.freeDout 1 ∧ t.permuted = Config.freePermuted 1) ∧
  ∀ (i : Instr) (s : State), ∃ t u, exec i State.reset = .next t ∧ exec i s = .next u ∧ t.answer = u.answer

/-- The invariant: a settled state's outputs are `eval` of its inputs on every defined bit; every step keeps it
(10_state.md R25; 70_reset_and_hazards.md R119, R120). The phase and the drawn bits are the model's (log entries 4 and 5). -/
def Obligations.StepKeepsSettledOutputs : Prop :=
  ∀ s t : State, s.Inv → step s = .next t → t.Inv

/-- Settled outputs stay while the inputs stay: sampling them again changes nothing at all (70_reset_and_hazards.md R119, "and
stay there while the inputs stay"). That the whole state stays, and what the settled phase is, are THE MODEL'S CHOICE (log
entries 2, 4 and 7). -/
def Obligations.SettledOutputsStay : Prop :=
  ∀ s : State, s.Inv → s.phase = .settled → s.pins.allDriven = true → step s = .next s

/-- Every instruction and every change of the inputs keeps the invariant (10_state.md R25; the phase is the model's, log
entries 2 and 4). -/
def Obligations.ExecAndPresentKeepSettledOutputs : Prop :=
  ∀ s : State, s.Inv →
    (∀ i : Instr, ∃ t, exec i s = .next t ∧ t.Inv ∧ t.outputsHold) ∧ (∀ p : Pins, (s.present p).Inv)

/-- The invariant holds at power-up. THE MODEL'S CHOICE (log entry 6): it holds there because the phase of `State.reset` is
`settling 0`, so it asks nothing of the outputs, which are any value (70_reset_and_hazards.md R113). -/
def Obligations.PowerUpMeetsTheSettledInvariant : Prop := State.reset.Inv

/-! ## Scripts and names -/

/-- A well-formed script runs to its end, top to bottom, each line one settled transaction (30_encoding.md R56;
60_exceptions.md R106): line `k` leaves one sample, the `k`-th, under its label, of the operation its mnemonic means on the
word its operand gives with the samples of the lines above it, and the answer is `eval` of that command. That labels are
numbers and not repeated is THE MODEL'S CHOICE (log entry 10), and so is that names and `ALL` are well formed, with the same
word, before a decode, where R57 is silent (log entry 14). -/
def Obligations.WellFormedScriptsRunToTheirEnd : Prop :=
  ∀ (p : Script) (s : State), Script.wellFormed [] p = true →
    ∃ samples t, runScript p [] s = some (samples, t) ∧ samples.length = p.length ∧
      ∀ (k : Nat) (l : Line), p[k]? = some l →
        ∃ x, operandWord (samples.reverse.take k).reverse l.operand = some x ∧
          samples.reverse[k]? =
            some { label := l.label, instr := instrOf l.mnemonic x,
                   answer := eval (instrOf l.mnemonic x).op (instrOf l.mnemonic x).din }

/-- What a line's mnemonic and operand mean (30_encoding.md R56, R57; 00_scope.md R19): a numeral is `din`, names are the OR of
their masks, `ALL` is `0x03FFFFFF`, `@label` is the `dout` and `@label.p` the `permuted` sampled from the earlier line so
labelled; `encode` is `ENC` and `decode` is `DEC`. THE MODEL'S CHOICE: names and `ALL` mean the same word before a decode,
where R57 is silent (log entry 14), and labels are numbers, not repeated (log entry 10). -/
def Obligations.ScriptLinesMeanWhatTheyName : Prop :=
  ∀ (p : Script) (s : State), Script.wellFormed [] p = true →
    ∃ samples t, runScript p [] s = some (samples, t) ∧
      ∀ (k : Nat) (l : Line), p[k]? = some l →
        ∃ y, samples.reverse[k]? = some y ∧
          (match l.mnemonic with
           | .enc | .encode => y.instr = .enc y.instr.din
           | .dec | .decode => y.instr = .dec y.instr.din
           | .enct => y.instr = .enct y.instr.din
           | .dect => y.instr = .dect y.instr.din) ∧
          (match l.operand with
           | .num n => y.instr.din.toNat = n
           | .names fs => y.instr.din = flagsOf fs
           | .all => y.instr.din = 0x03FFFFFF#32
           | .doutOf m => ∃ j z, j < k ∧ samples.reverse[j]? = some z ∧ z.label = some m ∧ p[j]?.map Line.label = some (some m) ∧
               y.instr.din = z.answer.dout
           | .permutedOf m => ∃ j z, j < k ∧ samples.reverse[j]? = some z ∧ z.label = some m ∧
               p[j]?.map Line.label = some (some m) ∧ y.instr.din = z.answer.permuted)

/-- The names sit on bits 0 to 25, all together they are `0x03FFFFFF`, the `WARP_` names are bits 11 to 22, and their
encoding is the source's fifth vector (30_encoding.md R50; 95_test_vectors.md V5). The single positions of bits 13 to 25
are the spec's own recovery (R51; log entry 9). -/
def Obligations.FeatureTable : Prop :=
  allFeatures.map featureBit = List.range 26 ∧ flagsOf allFeatures = 0x03FFFFFF#32 ∧
  flagsOf (allFeatures.filter isWarp) = 0x007FF800#32 ∧
  encAnswer (flagsOf (allFeatures.filter isWarp)) = { dout := 3669279530#32, permuted := 0x7F0000F8#32 }

/-- Names joined by `|` make the FLAGS word that enables exactly those features and has no bit above 25
(30_encoding.md R49, R57). -/
def Obligations.JoinedNamesEnableExactlyThose : Prop :=
  ∀ (fs : List Feature) (f : Feature),
    (enables (flagsOf fs) f = true ↔ f ∈ fs) ∧ flagsOf fs ≤ 0x03FFFFFF#32 ∧
    (∀ w : Word, w &&& 0x03FFFFFF#32 = flagsOf (allFeatures.filter fun g => enables w g))
end

