-- ==== Sys2Proof/Laws/State.lean ====
section
/-! SUPPORT. Laws/State.lean: one lemma per field per update of State, each true by unfolding, so that no later proof unfolds
a record update. -/

namespace Sys2Proof.Machine

section
variable (s : State) (i : Instr) (a : Answer) (n : Nat) (nbits w : Nat)

@[simp] theorem State.transact_pins : (s.transact i a).pins = Pins.ofInstr i := rfl
@[simp] theorem State.transact_dout : (s.transact i a).dout = a.dout := rfl
@[simp] theorem State.transact_permuted : (s.transact i a).permuted = a.permuted := rfl
@[simp] theorem State.transact_phase : (s.transact i a).phase = .settled := rfl
@[simp] theorem State.transact_draws : (s.transact i a).draws = s.draws := rfl

@[simp] theorem State.sampleUnsettled_pins : (s.sampleUnsettled n).pins = s.pins := rfl
@[simp] theorem State.sampleUnsettled_dout : (s.sampleUnsettled n).dout = Config.freeDout s.draws := rfl
@[simp] theorem State.sampleUnsettled_permuted : (s.sampleUnsettled n).permuted = Config.freePermuted s.draws := rfl
@[simp] theorem State.sampleUnsettled_phase : (s.sampleUnsettled n).phase = .settling n := rfl
@[simp] theorem State.sampleUnsettled_draws : (s.sampleUnsettled n).draws = s.draws + 1 := rfl

@[simp] theorem State.sampleUndriven_pins : s.sampleUndriven.pins = s.pins := rfl
@[simp] theorem State.sampleUndriven_dout : s.sampleUndriven.dout =
    mixFree (undrivenReach s.pins).dout (eval s.pins.op s.pins.din).dout (Config.freeDout s.draws) := rfl
@[simp] theorem State.sampleUndriven_permuted : s.sampleUndriven.permuted =
    mixFree (undrivenReach s.pins).permuted (eval s.pins.op s.pins.din).permuted (Config.freePermuted s.draws) := rfl
@[simp] theorem State.sampleUndriven_phase : s.sampleUndriven.phase = .settled := rfl
@[simp] theorem State.sampleUndriven_draws : s.sampleUndriven.draws = s.draws + 1 := rfl

@[simp] theorem State.withFetchWord_pins : (s.withFetchWord nbits w).pins =
    Pins.drive (BitVec.ofNat 2 (w % 2 ^ nbits / 2 ^ 32)) (BitVec.ofNat 32 (w % 2 ^ nbits)) := rfl
@[simp] theorem State.withFetchWord_dout : (s.withFetchWord nbits w).dout = s.dout := rfl
@[simp] theorem State.withFetchWord_permuted : (s.withFetchWord nbits w).permuted = s.permuted := rfl
@[simp] theorem State.withFetchWord_phase : (s.withFetchWord nbits w).phase = .settling 0 := rfl
@[simp] theorem State.withFetchWord_draws : (s.withFetchWord nbits w).draws = s.draws := rfl
end

@[simp] theorem Phase.remaining_settling (n : Nat) : (Phase.settling n).remaining = n := rfl
@[simp] theorem Phase.remaining_settled : Phase.settled.remaining = 0 := rfl

section
variable (op : BitVec 2) (x : Word)
@[simp] theorem Pins.drive_op : (Pins.drive op x).op = op := rfl
@[simp] theorem Pins.drive_opDriven : (Pins.drive op x).opDriven = 0b11#2 := rfl
@[simp] theorem Pins.drive_din : (Pins.drive op x).din = x := rfl
@[simp] theorem Pins.drive_dinDriven : (Pins.drive op x).dinDriven = 0xFFFFFFFF#32 := rfl
@[simp] theorem Pins.drive_allDriven : (Pins.drive op x).allDriven = true := rfl
@[simp] theorem Pins.ofInstr_op (i : Instr) : (Pins.ofInstr i).op = i.op := rfl
@[simp] theorem Pins.ofInstr_din (i : Instr) : (Pins.ofInstr i).din = i.din := rfl
@[simp] theorem Pins.ofInstr_allDriven (i : Instr) : (Pins.ofInstr i).allDriven = true := rfl
end

/-- The command word on the pins that present an instruction is its encoding. -/
theorem Pins.ofInstr_command (i : Instr) : (Pins.ofInstr i).command = encode i := by
  rw [Pins.command, encode, Pins.ofInstr_op, Pins.ofInstr_din]

/-- Fully driven pins are the pins that drive their own values. -/
theorem Pins.eq_drive_of_allDriven {p : Pins} (h : p.allDriven = true) : p = Pins.drive p.op p.din := by
  obtain ⟨op, od, x, xd⟩ := p
  simp only [Pins.allDriven, Bool.and_eq_true, beq_iff_eq] at h
  obtain ⟨rfl, rfl⟩ := h
  rfl

/-! Presenting: nothing where the ports already carry the pins, else each field. -/

theorem State.present_self (s : State) : s.present s.pins = s := by simp [State.present]

section
variable {s : State} {p : Pins}
theorem State.present_dout (h : p ≠ s.pins) : (s.present p).dout = Config.freeDout s.draws := by simp [State.present, h]
theorem State.present_permuted (h : p ≠ s.pins) : (s.present p).permuted = Config.freePermuted s.draws := by
  simp [State.present, h]
theorem State.present_phase (h : p ≠ s.pins) :
    (s.present p).phase = .settling (Config.samplesWithinDelay s.draws) := by simp [State.present, h]
theorem State.present_draws (h : p ≠ s.pins) : (s.present p).draws = s.draws + 1 := by simp [State.present, h]
end

@[simp] theorem State.present_pins (s : State) (p : Pins) : (s.present p).pins = p := by
  unfold State.present
  split
  · exact Eq.symm ‹_›
  · rfl

end Sys2Proof.Machine
end

