-- ==== Sys2Proof/Laws/Ops.lean ====
section
/-! SUPPORT. Laws/Ops.lean: for each shared operation, once, what it can do. Proofs cite these and do not unfold the
operation. The datapath lemmas say which input bit each output bit comes from. -/

namespace Sys2Proof.Machine

/-! ## The datapath, bit by bit -/

/-- Each bit of `ofBytes`: its byte's bit. -/
theorem ofBytes_getLsbD (b3 b2 b1 b0 : Byte) (j : Nat) :
    (ofBytes b3 b2 b1 b0).getLsbD j =
      if j < 8 then b0.getLsbD j else if j < 16 then b1.getLsbD (j - 8)
      else if j < 24 then b2.getLsbD (j - 16) else b3.getLsbD (j - 24) := by
  rw [ofBytes, BitVec.getLsbD_append, BitVec.getLsbD_append, BitVec.getLsbD_append]
  by_cases h0 : j < 8
  · simp [h0]
  · by_cases h1 : j < 16
    · simp [h0, h1, show j - 8 < 8 by omega]
    · by_cases h2 : j < 24
      · simp [h0, h1, h2, show ¬ j - 8 < 8 by omega, show j - 8 - 8 = j - 16 by omega, show j - 16 < 8 by omega]
      · simp [h0, h1, h2, show ¬ j - 8 < 8 by omega, show j - 8 - 8 = j - 16 by omega, show ¬ j - 16 < 8 by omega,
          show j - 16 - 8 = j - 24 by omega]

/-- Each bit of a byte of a word. -/
theorem byteAt_getLsbD (k : Nat) (v : Word) (j : Nat) :
    (byteAt k v).getLsbD j = (decide (j < 8) && v.getLsbD (8 * k + j)) := by
  simp [byteAt]

/-- Every word is made of its four bytes. -/
theorem ofBytes_byteAt (v : Word) : ofBytes (byteAt 3 v) (byteAt 2 v) (byteAt 1 v) (byteAt 0 v) = v := by
  apply BitVec.eq_of_getLsbD_eq
  intro j hj
  simp only [ofBytes_getLsbD, byteAt_getLsbD]
  split
  · simp [*]
  · split
    · rw [decide_eq_true (by omega), Bool.true_and]; congr 1; omega
    · split
      · rw [decide_eq_true (by omega), Bool.true_and]; congr 1; omega
      · rw [decide_eq_true (by omega), Bool.true_and]; congr 1; omega

/-- Which input bit each bit of `PERM_F` is. -/
theorem permF_getLsbD (f : Word) (j : Nat) :
    (permF f).getLsbD j =
      if j < 8 then f.getLsbD (j + 8) else if j < 16 then f.getLsbD (j + 16)
      else if j < 24 then f.getLsbD (j - 16) else if j < 32 then f.getLsbD (j - 8) else false := by
  by_cases h : j < 32
  · interval_cases j <;> simp [permF]
  · rw [BitVec.getLsbD_of_ge _ _ (by omega)]
    simp [show ¬ j < 8 by omega, show ¬ j < 16 by omega, show ¬ j < 24 by omega, h]

/-- Which input bit each bit of `PERM_I` is. -/
theorem permI_getLsbD (p : Word) (j : Nat) :
    (permI p).getLsbD j =
      if j < 8 then p.getLsbD (j + 16) else if j < 16 then p.getLsbD (j - 8)
      else if j < 24 then p.getLsbD (j + 8) else if j < 32 then p.getLsbD (j - 16) else false := by
  by_cases h : j < 32
  · interval_cases j <;> simp [permI]
  · rw [BitVec.getLsbD_of_ge _ _ (by omega)]
    simp [show ¬ j < 8 by omega, show ¬ j < 16 by omega, show ¬ j < 24 by omega, h]

/-- Each bit of `XORK`: inverted where the key has a 1. -/
theorem xork_getLsbD (v : Word) (j : Nat) : (xork v).getLsbD j = (v.getLsbD j ^^ key.getLsbD j) := by
  simp [xork]

/-- The full-flags mask keeps exactly the bits 0 to 25. -/
theorem flagMask_getLsbD (j : Nat) : flagMask.getLsbD j = decide (j < 26) := by
  by_cases h : j < 32
  · interval_cases j <;> rfl
  · rw [BitVec.getLsbD_of_ge _ _ (by omega), decide_eq_false (by omega)]

/-- Each bit of a confined word: bits 26 to 31 are 0 when `t` is 1. -/
theorem confine_getLsbD (t : Bool) (w : Word) (j : Nat) :
    (confine t w).getLsbD j = (w.getLsbD j && (!t || decide (j < 26))) := by
  cases t <;> simp [confine, flagMask_getLsbD]

/-- Each bit of a mixed word: free where `u` has a 1. -/
theorem mixFree_getLsbD (u v free : Word) (j : Nat) (h : j < 32) :
    (mixFree u v free).getLsbD j = if u.getLsbD j then free.getLsbD j else v.getLsbD j := by
  simp only [mixFree, BitVec.getLsbD_or, BitVec.getLsbD_and, BitVec.getLsbD_not, h]
  cases u.getLsbD j <;> simp

/-! ## What one instruction and one step can do -/

/-- The outputs of an instruction are `eval` of its command word. -/
theorem eval_op_din (i : Instr) : eval i.op i.din =
    match i with
    | .enc x => encAnswer x
    | .dec x => decAnswer x
    | .enct x => enctAnswer x
    | .dect x => dectAnswer x := by
  cases i <;> simp [eval, Instr.op, Instr.din]

/-- Everything an instruction does: the whole transaction, with `eval` of its command word sampled. -/
theorem exec_eq_transact (i : Instr) (s : State) : exec i s = .next (s.transact i (eval i.op i.din)) := by
  rw [eval_op_din]
  cases i <;> rfl

/-- Everything a step can do: a sample within `T_PD`, a transaction completed, or a sample with an undriven input bit. -/
theorem step_cases {s t : State} (h : step s = .next t) :
    (∃ n, s.phase.remaining = n + 1 ∧ t = s.sampleUnsettled n) ∨
    (s.phase.remaining = 0 ∧ s.pins.allDriven = true ∧
      t = s.transact (fetch s.pins) (eval (fetch s.pins).op (fetch s.pins).din)) ∨
    (s.phase.remaining = 0 ∧ s.pins.allDriven = false ∧ t = s.sampleUndriven) := by
  unfold step at h
  split at h
  · rename_i n hr
    exact .inl ⟨n, hr, (Host.Outcome.next.inj h).symm⟩
  · rename_i hr hd
    rw [exec_eq_transact] at h
    exact .inr (.inl ⟨hr, hd, (Host.Outcome.next.inj h).symm⟩)
  · rename_i hr hd
    exact .inr (.inr ⟨hr, hd, (Host.Outcome.next.inj h).symm⟩)

/-- A step within `T_PD`. -/
theorem step_unsettled {s : State} {n : Nat} (h : s.phase.remaining = n + 1) : step s = .next (s.sampleUnsettled n) := by
  unfold step
  rw [h]

/-- A settled step with some input bit undriven. -/
theorem step_undriven {s : State} (h : s.phase.remaining = 0) (hd : s.pins.allDriven = false) :
    step s = .next s.sampleUndriven := by
  unfold step
  rw [h, hd]

/-- A run of one step more. -/
theorem core_run_succ (k : Nat) {s t : State} (h : step s = .next t) :
    Sys2Proof.core.run (k + 1) s = Sys2Proof.core.run k t := by
  have key (M : Host.Core) {a b : M.State} (hab : M.step a = .next b) : M.run (k + 1) a = M.run k b := by
    simp only [Host.Core.run, hab]
  exact key Sys2Proof.core h

/-! ## Scripts -/

@[simp] theorem runScript_nil (seen : List Sample) (s : State) : runScript [] seen s = some (seen, s) := rfl

/-- One line of a script whose operand gives a word: its transaction, then the lines below it. -/
theorem runScript_cons {l : Line} {seen : List Sample} {x : Word} (h : operandWord seen l.operand = some x)
    (ls : Script) (s : State) :
    runScript (l :: ls) seen s =
      runScript ls
        (⟨l.label, instrOf l.mnemonic x, eval (instrOf l.mnemonic x).op (instrOf l.mnemonic x).din⟩ :: seen)
        (s.transact (instrOf l.mnemonic x) (eval (instrOf l.mnemonic x).op (instrOf l.mnemonic x).din)) := by
  simp only [runScript, h, exec_eq_transact, State.transact_dout, State.transact_permuted]

end Sys2Proof.Machine
end

