-- ==== Sys2Proof/Laws/PerInstr.lean ====
section
/-! SUPPORT. Laws/PerInstr.lean: statements about every instruction as syntax, one lemma per constructor. -/

namespace Sys2Proof.Laws

/-- An instruction is well formed (30_encoding.md R48), its row of the opcode map carries its `op` value in bits 33 and 32 of
the match (R47), and the pins that present it carry its command word (R43). -/
def RowOfOpcodeMap.Statement (i : Instr) : Prop :=
  i.wellFormed = true ∧ (Machine.Pins.ofInstr i).command = encode i ∧
    ∃ r ∈ opcodeRows, r.mnemonic = i.mnemonic ∧ r.pattern.extractLsb' 32 2 = i.op

theorem RowOfOpcodeMap.enc (x : Word) : RowOfOpcodeMap.Statement (.enc x) :=
  ⟨rfl, Machine.Pins.ofInstr_command _, _, .head _, rfl, (by decide : _ = 0b00#2)⟩

theorem RowOfOpcodeMap.dec (x : Word) : RowOfOpcodeMap.Statement (.dec x) :=
  ⟨rfl, Machine.Pins.ofInstr_command _, _, .tail _ (.head _), rfl, (by decide : _ = 0b01#2)⟩

theorem RowOfOpcodeMap.enct (x : Word) : RowOfOpcodeMap.Statement (.enct x) :=
  ⟨rfl, Machine.Pins.ofInstr_command _, _, .tail _ (.tail _ (.head _)), rfl, (by decide : _ = 0b10#2)⟩

theorem RowOfOpcodeMap.dect (x : Word) : RowOfOpcodeMap.Statement (.dect x) :=
  ⟨rfl, Machine.Pins.ofInstr_command _, _, .tail _ (.tail _ (.tail _ (.head _))), rfl, (by decide : _ = 0b11#2)⟩

end Sys2Proof.Laws
end

