-- ==== Sys2Proof/Tests/Slice0.lean ====
section
/-! SUPPORT. Tests/Slice0.lean: small tests with expected values from the spec's own vectors (95_test_vectors.md), the
refusals of the well-formedness checks, and for each obligation with hypotheses a concrete state or operand that meets them
all (`witness_…`). -/

namespace Sys2Proof.Tests

open Sys2Proof.Machine

/-- The outputs an instruction leaves, run from power-up. -/
def answerOf (i : Instr) : Option Answer :=
  match exec i State.reset with
  | .next t => some t.answer
  | .fault _ => none
  | .refused _ => none

/-- The outputs the first step samples with a command word of the table on the ports. -/
def firstAnswer (c : Nat) : Option Answer :=
  match step (State.reset.withFetchWord 40 c) with
  | .next t => some t.answer
  | .fault _ => none
  | .refused _ => none

/-! ## Decoding: words written out from 30_encoding.md R43 and R47 (`op`, then 32 bits of `din`) -/

theorem test_decode_enc : decode 0b00_00010010001101000101011001111000 = .ok (.enc 0x12345678#32) := by decide
theorem test_decode_dec : decode 0b01_10010001110011001101000110000100 = .ok (.dec 0x91CCD184#32) := by decide
theorem test_decode_enct : decode 0b10_10101011110011011110111100000001 = .ok (.enct 0xABCDEF01#32) := by decide
theorem test_decode_dect : decode 0b11_00000111010110111100110100010101 = .ok (.dect 0x075BCD15#32) := by decide
theorem test_decode_rejects_bit_34 : decode (2 ^ 34) = .error .beyondCommandWord := by decide
theorem test_table_word : decodeTableWord 40 0x3075BCD15 = some (.dect 0x075BCD15#32) := by decide
theorem test_table_word_rejected : decodeTableWord 40 (2 ^ 39) = none := by decide
/-- Column `C` of V33. -/
theorem test_encode_dect : encode (.dect 0x075BCD15#32) = 0x3075BCD15#34 := by decide
theorem test_hexDigits : hexDigits 0x3075BCD15#34 = [0x3, 0x0, 0x7, 0x5, 0xB, 0xC, 0xD, 0x1, 0x5] := by decide

/-! ## Well-formedness: each check refuses an ill-formed term -/

theorem test_wf_command_word_refused : isCommandWord (2 ^ 34) = false := by decide
theorem test_wf_numeral_refused : Operand.wellFormed [] (.num (2 ^ 32)) = false := by decide
theorem test_wf_no_names_refused : Operand.wellFormed [] (.names []) = false := by decide
theorem test_wf_dout_of_later_line_refused : Operand.wellFormed [1] (.doutOf 2) = false := by decide
theorem test_wf_permuted_of_later_line_refused : Operand.wellFormed [] (.permutedOf 1) = false := by decide
theorem test_wf_label_twice_refused :
    Script.wellFormed [] [⟨some 1, .enc, .all⟩, ⟨some 1, .dec, .num 0⟩] = false := by decide
theorem test_wf_own_label_refused : Script.wellFormed [] [⟨some 1, .enc, .doutOf 1⟩] = false := by decide

/-! ## The stages (95_test_vectors.md S1, S5, S11, S12, X6) -/

theorem test_permF : permF 0x03020100#32 = 0x02000301#32 ∧ permF 0x80000000#32 = 0x00008000#32 := by decide
theorem test_permI : permI 0x03020100#32 = 0x01030002#32 ∧ permI 0xFFFF03FF#32 = 0x03FFFFFF#32 := by decide
theorem test_xork : xork 0x12345678#32 = 0xB78095AA#32 := by decide

/-! ## The operations -/

/-- V17; V14 is the vector against an arithmetic shift. -/
theorem test_enc : answerOf (.enc 0xABCDEF01#32) = some ⟨0x68B5683D#32, 0xCD01ABEF#32⟩ ∧
    answerOf (.enc 0xFF000000#32) = some ⟨0xA5B43CD2#32, 0x0000FF00#32⟩ := by decide

/-- The 32 rows of 44_laws.md R93, in the order of the FLAGS bits. -/
theorem test_enc_one_bit : ((List.range 32).map fun i => (encAnswer (1#32 <<< i)).dout) =
    [0xA5B5C3D2#32, 0xA5B6C3D2#32, 0xA5B0C3D2#32, 0xA5BCC3D2#32, 0xA5A4C3D2#32, 0xA594C3D2#32, 0xA5F4C3D2#32, 0xA534C3D2#32] ++
    [0xA5B4C3D3#32, 0xA5B4C3D0#32, 0xA5B4C3D6#32, 0xA5B4C3DA#32, 0xA5B4C3C2#32, 0xA5B4C3F2#32, 0xA5B4C392#32, 0xA5B4C352#32] ++
    [0xA4B4C3D2#32, 0xA7B4C3D2#32, 0xA1B4C3D2#32, 0xADB4C3D2#32, 0xB5B4C3D2#32, 0x85B4C3D2#32, 0xE5B4C3D2#32, 0x25B4C3D2#32] ++
    [0xA5B4C2D2#32, 0xA5B4C1D2#32, 0xA5B4C7D2#32, 0xA5B4CBD2#32, 0xA5B4D3D2#32, 0xA5B4E3D2#32, 0xA5B483D2#32, 0xA5B443D2#32] := by
  decide

/-- V25, V28. -/
theorem test_dec : answerOf (.dec 0x075BCD15#32) = some ⟨0x0EA2C7EF#32, 0xA2EF0EC7#32⟩ ∧
    answerOf (.dec 0xA5B4FFD2#32) = some ⟨0x3C000000#32, 0x00003C00#32⟩ := by decide
/-- V20, V19. -/
theorem test_enct : answerOf (.enct 0xABCDEF01#32) = some ⟨0x68B5C03D#32, 0xCD0103EF#32⟩ ∧
    answerOf (.enct 0xFC000000#32) = some ⟨0xA5B4C3D2#32, 0x00000000#32⟩ := by decide
/-- V33, V31. -/
theorem test_dect : answerOf (.dect 0x075BCD15#32) = some ⟨0x02A2C7EF#32, 0xA2EF0EC7#32⟩ ∧
    answerOf (.dect 0xA5B4FFD2#32) = some ⟨0x00000000#32, 0x00003C00#32⟩ := by decide
/-- V1, V3, V18, V32 as command words on the ports. -/
theorem test_first_step : firstAnswer 0x003FFFFFF = some ⟨0x5A4BC02D#32, 0xFFFF03FF#32⟩ ∧
    firstAnswer 0x15A4BC02D = some ⟨0x03FFFFFF#32, 0xFFFF03FF#32⟩ ∧
    firstAnswer 0x2FFFFFFFF = some ⟨0x5A4BC02D#32, 0xFFFF03FF#32⟩ ∧
    firstAnswer 0x35A4BC02D = some ⟨0x03FFFFFF#32, 0xFFFF03FF#32⟩ := by decide

/-! ## Scripts (95_test_vectors.md P1 and the first and last line of P2) -/

/-- The answers of a script run from power-up, newest first. -/
def scriptAnswers (p : Script) : Option (List Answer) := (runScript p [] State.reset).map fun r => r.1.map Sample.answer

theorem test_script_P1 : scriptAnswers [⟨some 1, .enc, .all⟩, ⟨some 2, .decode, .doutOf 1⟩] =
    some [⟨0x03FFFFFF#32, 0xFFFF03FF#32⟩, ⟨0x5A4BC02D#32, 0xFFFF03FF#32⟩] := by decide
theorem test_script_P2 : scriptAnswers [⟨some 1, .encode, .num 0xAA000000⟩, ⟨none, .enc, .permutedOf 1⟩] =
    some [⟨0xA5B4C378#32, 0x000000AA#32⟩, ⟨0xA5B469D2#32, 0x0000AA00#32⟩] := by decide
/-- V5: the twelve `WARP_` names joined by `|`. -/
theorem test_script_warp : scriptAnswers [⟨none, .enc, .names (allFeatures.filter isWarp)⟩] =
    some [⟨3669279530#32, 0x7F0000F8#32⟩] := by decide

/-! ## Witnesses: the hypotheses of the obligations are met -/

theorem witness_DecodeOfEncodeIsIdentity : (Instr.dect 0xFFFFFFFF#32).wellFormed = true := rfl
theorem witness_LongerWordsAreRejected : 2 ^ 34 ≤ 2 ^ 34 := by decide
/-- The boundaries of each range of bits in the bit maps (R64, R67, R73, R91, R92), and of `k` (R82, R85). -/
theorem witness_bit_ranges : [0, 7, 8, 15, 16, 23, 24, 31].all (fun j => decide (j < 32)) = true ∧
    [0, 5].all (fun k => decide (k < 6)) = true := by decide
theorem witness_EncodeShiftsAreLogical : (0x80FF00FF#32).getLsbD 31 = true ∧ (0x80000000#32).getLsbD 31 = true := by decide
/-- The corner operands of `ENC` and `DEC` and their answers (V1, V2, V12; V3, V4, V22). -/
theorem witness_corner_operands :
    encAnswer 0#32 = ⟨0xA5B4C3D2#32, 0#32⟩ ∧ encAnswer 0xFFFFFFFF#32 = ⟨0x5A4B3C2D#32, 0xFFFFFFFF#32⟩ ∧
    encAnswer 0x03FFFFFF#32 = ⟨0x5A4BC02D#32, 0xFFFF03FF#32⟩ ∧ decAnswer 0xA5B4C3D2#32 = ⟨0#32, 0#32⟩ ∧
    decAnswer 0#32 = ⟨0xC3A5D2B4#32, 0xA5B4C3D2#32⟩ ∧ decAnswer 0x5A4BC02D#32 = ⟨0x03FFFFFF#32, 0xFFFF03FF#32⟩ := by decide
theorem witness_EnctTruncatesItsOperand : 0x03FFFFFF#32 ≤ 0x03FFFFFF#32 ∧
    (0xFC000001#32).extractLsb' 0 26 = (0x00000001#32).extractLsb' 0 26 := by decide
theorem witness_DectTruncatesItsResult : cleanPassword 0xA5B4C3D2#32 = true ∧
    0x00000400#32 &&& 0xFFFF03FF#32 = 0#32 &&& 0xFFFF03FF#32 ∧ 0x00000400#32 ≠ 0#32 := by decide

/-- A driven, held transaction on the ports. -/
def held : State := State.reset.withFetchWord 40 0x15A4BC02D

theorem witness_StepRunsTheDecodedInstruction : held.phase.remaining = 0 ∧ held.pins.allDriven = true ∧
    (Instr.dec 0x5A4BC02D#32).wellFormed = true ∧ decode held.pins.command.toNat = .ok (.dec 0x5A4BC02D#32) := by decide
theorem witness_SettledOutputsAreEval : held.phase.remaining = 0 ∧ held.pins.allDriven = true := by decide

/-- The same transaction completed. -/
def completed : State := held.transact (.dec 0x5A4BC02D#32) (decAnswer 0x5A4BC02D#32)

theorem witness_SettledOutputsStay : completed.Inv ∧ completed.phase = .settled ∧ completed.pins.allDriven = true := by decide
theorem witness_UnsettledOutputsAreFree : (held.sampleUnsettled 1).phase = .settling (0 + 1) ∧
    Pins.drive 0b00#2 0#32 ≠ held.pins := by decide

/-- A held state with the input bits outside `od` and `xd` undriven. -/
def partly (op od : BitVec 2) (x xd : Word) : State := { State.reset with pins := ⟨op, od, x, xd⟩ }

/-- One undriven `din` bit under each of the four operations, `op[1]` undriven in each direction, `op[0]` undriven: all meet
the hypotheses, and the output bits reached are those of 70_reset_and_hazards.md R120. -/
theorem witness_UndrivenBitsReachExactlyTheirOutputs :
    [partly 0b00#2 0b11#2 0#32 0xFBFFFFFF#32, partly 0b01#2 0b11#2 0#32 0xFFFFFBFF#32, partly 0b10#2 0b11#2 0#32 0xFBFFFFFF#32,
     partly 0b11#2 0b11#2 0#32 0xFFFFFBFF#32, partly 0b00#2 0b01#2 0#32 0xFFFFFFFF#32, partly 0b01#2 0b01#2 0#32 0xFFFFFFFF#32,
     partly 0b00#2 0b10#2 0#32 0xFFFFFFFF#32].map
      (fun s => (s.phase.remaining, s.pins.allDriven, (undrivenReach s.pins).dout, (undrivenReach s.pins).permuted)) =
    [(0, false, 0x00000400#32, 0x00000400#32), (0, false, 0x04000000#32, 0x00000400#32), (0, false, 0#32, 0#32),
     (0, false, 0#32, 0x00000400#32), (0, false, 0x0000FC00#32, 0x0000FC00#32), (0, false, 0xFC000000#32, 0#32),
     (0, false, 0xFFFFFFFF#32, 0xFFFFFFFF#32)] := by decide

/-- Two different states that differ only in what undriven bits are stored as. -/
theorem witness_UndrivenValuesAreNeverRead :
    samePinsWhereDriven (partly 0b00#2 0b01#2 0#32 0xFFFFFFFE#32).pins (partly 0b10#2 0b01#2 1#32 0xFFFFFFFE#32).pins ∧
    (partly 0b00#2 0b01#2 0#32 0xFFFFFFFE#32).pins ≠ (partly 0b10#2 0b01#2 1#32 0xFFFFFFFE#32).pins ∧
    (partly 0b00#2 0b01#2 0#32 0xFFFFFFFE#32).draws = (partly 0b10#2 0b01#2 1#32 0xFFFFFFFE#32).draws ∧
    (partly 0b00#2 0b01#2 0#32 0xFFFFFFFE#32).phase = (partly 0b10#2 0b01#2 1#32 0xFFFFFFFE#32).phase := by decide

theorem witness_StepKeepsSettledOutputs : State.reset.Inv ∧ step State.reset = .next State.reset.sampleUndriven :=
  ⟨by decide, step_undriven rfl rfl⟩
theorem witness_ExecAndPresentKeepSettledOutputs : completed.Inv ∧ State.reset.Inv := by decide
/-- A well-formed script with every mnemonic and every operand form; its lines 0 to 6 are the boundaries of `k`. -/
def everyForm : Script :=
  [⟨some 1, .enc, .all⟩, ⟨some 2, .decode, .doutOf 1⟩, ⟨none, .enct, .permutedOf 2⟩, ⟨none, .dect, .names [.flyMode]⟩,
   ⟨some 3, .dec, .num (2 ^ 32 - 1)⟩, ⟨none, .encode, .num 0⟩, ⟨none, .enc, .doutOf 3⟩]

theorem witness_WellFormedScriptsRunToTheirEnd : Script.wellFormed [] everyForm = true ∧
    everyForm[0]? = some ⟨some 1, .enc, .all⟩ ∧ everyForm[6]? = some ⟨none, .enc, .doutOf 3⟩ := by decide
theorem witness_ScriptLinesMeanWhatTheyName : Script.wellFormed [] everyForm = true ∧
    everyForm[1]? = some ⟨some 2, .decode, .doutOf 1⟩ ∧ everyForm[2]? = some ⟨none, .enct, .permutedOf 2⟩ ∧
    everyForm[3]? = some ⟨none, .dect, .names [.flyMode]⟩ ∧ everyForm[4]? = some ⟨some 3, .dec, .num (2 ^ 32 - 1)⟩ ∧
    everyForm[5]? = some ⟨none, .encode, .num 0⟩ := by decide
/-- 30_encoding.md R57 as the model reads it before a decode (log entry 14): `DEC ALL` decodes `0x03FFFFFF`. -/
theorem test_script_decode_of_ALL : scriptAnswers [⟨none, .dec, .all⟩] = some [decAnswer 0x03FFFFFF#32] := by decide

end Sys2Proof.Tests
end

section
/-! PROOFS. The port state (10_state.md): what the ports present, the transaction a held step completes, and the invariant
that settled outputs are `eval` of the inputs. -/

namespace Sys2Proof.Machine

/-! ## The instruction on the ports -/

/-- The decoder reads `op` from the two bits above `din` (30_encoding.md R43, R47). -/
theorem decodeCommand_op (c : BitVec 34) : (decodeCommand c).op = c.extractLsb' 32 2 := by
  apply BitVec.eq_of_getLsbD_eq
  intro j hj
  rw [BitVec.getLsbD_extractLsb', decide_eq_true hj, Bool.true_and, decodeCommand]
  obtain rfl | rfl : j = 0 ∨ j = 1 := by omega
  · rw [Nat.add_zero]
    cases c.getLsbD 33 <;> cases c.getLsbD 32 <;> simp [Instr.op]
  · rw [show 32 + 1 = 33 from rfl]
    cases c.getLsbD 33 <;> cases c.getLsbD 32 <;> simp [Instr.op]

/-- The decoder reads `din` whole (30_encoding.md R43, R44). -/
theorem decodeCommand_din (c : BitVec 34) : (decodeCommand c).din = c.extractLsb' 0 32 := by
  unfold decodeCommand
  split <;> rfl

@[simp] theorem fetch_op (p : Pins) : (fetch p).op = p.op := by
  rw [fetch, decodeCommand_op, Pins.command]
  exact BitVec.extractLsb'_append_eq_left

@[simp] theorem fetch_din (p : Pins) : (fetch p).din = p.din := by
  rw [fetch, decodeCommand_din, Pins.command]
  exact BitVec.extractLsb'_append_eq_right

/-- Fully driven pins present the instruction fetched from them. -/
theorem Pins.ofInstr_fetch {p : Pins} (h : p.allDriven = true) : Pins.ofInstr (fetch p) = p := by
  rw [Pins.ofInstr, fetch_op, fetch_din]
  exact (Pins.eq_drive_of_allDriven h).symm

/-- Every command word fits the format, so the checked decoder agrees with the decoder on command words
(30_encoding.md R48). -/
theorem decode_toNat (c : BitVec 34) : decode c.toNat = .ok (decodeCommand c) := by
  have hc : isCommandWord c.toNat = true := decide_eq_true c.isLt
  rw [decode, if_pos hc, BitVec.ofNat_toNat, BitVec.setWidth_eq]

/-- A step on driven inputs held longer than `T_PD` is the transaction on the ports. -/
theorem step_driven {s : State} (h : s.phase.remaining = 0) (hd : s.pins.allDriven = true) :
    step s = exec (fetch s.pins) s := by
  unfold step
  rw [h, hd]

/-! ## Outputs that hold -/

@[simp] theorem State.transact_answer (s : State) (i : Instr) (a : Answer) : (s.transact i a).answer = a := rfl

/-- A mixed word agrees with the defined one wherever it is not free. -/
theorem agreeOutside_mixFree (u v free : Word) : agreeOutside u (mixFree u v free) v := by
  apply BitVec.eq_of_getLsbD_eq
  intro j hj
  rw [BitVec.getLsbD_and, BitVec.getLsbD_and, BitVec.getLsbD_not, mixFree_getLsbD u v free j hj]
  cases u.getLsbD j <;> simp

/-- Outputs that are `eval` of the inputs on every bit are so on the defined bits. -/
theorem State.outputsHold_of_answer_eq {s : State} (h : s.answer = eval s.pins.op s.pins.din) : s.outputsHold := by
  unfold State.outputsHold
  rw [← h]
  exact ⟨rfl, rfl⟩

/-- The outputs of a completed transaction hold. -/
theorem State.transact_outputsHold (s : State) (i : Instr) :
    (s.transact i (eval i.op i.din)).outputsHold :=
  State.outputsHold_of_answer_eq rfl

/-- The outputs of a settled sample with an undriven input bit hold (70_reset_and_hazards.md R120). -/
theorem State.sampleUndriven_outputsHold (s : State) : s.sampleUndriven.outputsHold :=
  ⟨agreeOutside_mixFree _ _ _, agreeOutside_mixFree _ _ _⟩

/-! ## The invariant -/

/-- A phase that is still settling asks nothing of the outputs. -/
theorem State.inv_of_settling {s : State} {n : Nat} (h : s.phase = .settling n) : s.Inv := by
  intro hs
  rw [h] at hs
  cases hs

/-- A change of the inputs restarts settling; presenting the pins already there changes nothing. -/
theorem State.present_keeps_inv {s : State} (hi : s.Inv) (p : Pins) : (s.present p).Inv := by
  by_cases h : p = s.pins
  · rwa [h, State.present_self]
  · exact State.inv_of_settling (State.present_phase h)

end Sys2Proof.Machine

namespace Sys2Proof.Proofs

open Sys2Proof.Machine

/-- Settles O50: a step within `T_PD` leaves the phase settling, and each of the two settled samples leaves outputs that
hold, whatever the outputs were before. -/
theorem stepKeepsSettledOutputs : Obligations.StepKeepsSettledOutputs := by
  intro s t _ h
  obtain ⟨n, _, rfl⟩ | ⟨_, _, rfl⟩ | ⟨_, _, rfl⟩ := step_cases h
  case inl => exact State.inv_of_settling (State.sampleUnsettled_phase s n)
  case inr.inl => exact fun _ => s.transact_outputsHold (fetch s.pins)
  case inr.inr => exact fun _ => s.sampleUndriven_outputsHold

/-- Settles O52: an instruction is its completed transaction, and presenting keeps the invariant. -/
theorem execAndPresentKeepSettledOutputs : Obligations.ExecAndPresentKeepSettledOutputs := by
  intro s hi
  constructor
  · intro i
    have hold := s.transact_outputsHold i
    exact ⟨_, exec_eq_transact i s, fun _ => hold, hold⟩
  · exact State.present_keeps_inv hi

/-- Settles O39: the decoder accepts the command word on the ports, so what it reads is what the step fetches. -/
theorem stepRunsTheDecodedInstruction : Obligations.StepRunsTheDecodedInstruction := by
  intro s i hr hd _ hdec
  have hi : fetch s.pins = i := Except.ok.inj ((decode_toNat s.pins.command).symm.trans hdec)
  rw [step_driven hr hd, hi]

/-- Settles O41: a held step completes the transaction of the fetched instruction, whose `op` and `din` are those on the
ports. -/
theorem settledOutputsAreEval : Obligations.SettledOutputsAreEval := by
  constructor
  · intro s hr hd
    refine ⟨_, (step_driven hr hd).trans (exec_eq_transact _ s), ?_, ?_, ?_, ?_⟩
    · rw [State.transact_answer, fetch_op, fetch_din]
    · rw [State.transact_pins, Pins.ofInstr_fetch hd]
    · exact State.transact_phase ..
    · exact State.transact_draws ..
  · intro x
    exact ⟨eval_op_din (.enc x), eval_op_din (.dec x), eval_op_din (.enct x), eval_op_din (.dect x)⟩

end Sys2Proof.Proofs
end

section
/-! PROOFS. Transactions one after another (20_memory.md): a completed transaction is a fixed point of the machine, and nothing
of the transactions before it is left in its answer. -/

namespace Sys2Proof.Machine

/-! ## Completed transactions -/

/-- Of two transactions in a row only the later one is left on the ports (10_state.md R20). -/
@[simp] theorem State.transact_transact (s : State) (i j : Instr) (a b : Answer) :
    (s.transact i a).transact j b = s.transact j b := rfl

/-- Completing what the ports already hold settled changes nothing. -/
theorem State.transact_self {s : State} {i : Instr} (hpins : Pins.ofInstr i = s.pins) (hphase : s.phase = .settled) :
    s.transact i s.answer = s := by
  rw [State.transact, hpins, ← hphase]
  rfl

/-- A settled state with driven inputs whose outputs are `eval` of them is a fixed point of the step: sampling it completes
the transaction it holds already (70_reset_and_hazards.md R119). -/
theorem step_eq_self {s : State} (hphase : s.phase = .settled) (hd : s.pins.allDriven = true)
    (ha : s.answer = eval s.pins.op s.pins.din) : step s = .next s := by
  have hr : s.phase.remaining = 0 := by rw [hphase, Phase.remaining_settled]
  rw [step_driven hr hd, exec_eq_transact, fetch_op, fetch_din, ← ha,
    State.transact_self (Pins.ofInstr_fetch hd) hphase]

/-- Sampling a completed transaction again changes nothing. -/
theorem step_transact (s : State) (i : Instr) :
    step (s.transact i (eval i.op i.din)) = .next (s.transact i (eval i.op i.din)) :=
  step_eq_self rfl (Pins.ofInstr_allDriven i) rfl

/-- A fixed point of the step is one of every run. -/
theorem core_run_eq_self {s : State} (h : step s = .next s) (k : Nat) : Sys2Proof.core.run k s = .next s := by
  induction k with
  | zero => rfl
  | succ k ih => rw [core_run_succ k h, ih]

/-! ## Lists of transactions -/

/-- A fold whose every step gives a value gives one itself. -/
theorem exists_foldlM_eq_some {σ ι : Type} {f : σ → ι → Option σ} (h : ∀ a j, ∃ b, f a j = some b) (l : List ι) (s : σ) :
    ∃ t, l.foldlM f s = some t := by
  induction l generalizing s with
  | nil => exact ⟨s, rfl⟩
  | cons j l ih =>
    obtain ⟨b, hb⟩ := h s j
    obtain ⟨t, ht⟩ := ih b
    exact ⟨t, by rw [List.foldlM_cons, hb, Option.bind_eq_bind, Option.bind_some, ht]⟩

end Sys2Proof.Machine

namespace Sys2Proof.Proofs

open Sys2Proof.Machine

/-- Settles O42: a completed transaction stands on the ports already, so executing, presenting and sampling it again find
nothing to change. -/
theorem repeatedTransactionsAgree : Obligations.RepeatedTransactionsAgree := by
  intro i s
  refine ⟨_, exec_eq_transact i s, ?_, ?_, ?_⟩
  · rw [exec_eq_transact, State.transact_transact]
  · exact State.present_self _
  · exact core_run_eq_self (step_transact s i)

/-- Settles O43: the earlier transactions all complete, and whatever state they leave, an instruction is its completed
transaction, whose outputs and pins name only its own command. -/
theorem transactionsDoNotInteract : Obligations.TransactionsDoNotInteract := by
  intro i before s
  refine (exists_foldlM_eq_some (fun a j => ?_) before s).imp fun t hbefore =>
    ⟨_, _, hbefore, exec_eq_transact i t, exec_eq_transact i s, rfl, rfl, rfl⟩
  exact ⟨a.transact j (eval j.op j.din), by rw [exec_eq_transact]⟩

end Sys2Proof.Proofs
end

section
/-! PROOFS. The command word (30_encoding.md): the fields of the encoder's word, the decoder and the encoder inverse to each
other, the rows of the opcode map, and a command word placed on the ports. -/

namespace Sys2Proof

/-! ## The encoder -/

/-- Every instruction is well formed (30_encoding.md R48). -/
theorem wellFormed_eq_true (i : Instr) : i.wellFormed = true := by
  cases i <;> rfl

/-- The `t` bit of the command word is `op[1]` (30_encoding.md R43, R46). -/
@[simp] theorem encode_getLsbD_33 (i : Instr) : (encode i).getLsbD 33 = i.op.getLsbD 1 := by
  rw [encode, BitVec.getLsbD_append, if_neg (by decide)]

/-- The `d` bit of the command word is `op[0]` (30_encoding.md R43, R46). -/
@[simp] theorem encode_getLsbD_32 (i : Instr) : (encode i).getLsbD 32 = i.op.getLsbD 0 := by
  rw [encode, BitVec.getLsbD_append, if_neg (by decide)]

@[simp] theorem encode_extractLsb'_op (i : Instr) : (encode i).extractLsb' 32 2 = i.op :=
  BitVec.extractLsb'_append_eq_left

@[simp] theorem encode_extractLsb'_din (i : Instr) : (encode i).extractLsb' 0 32 = i.din :=
  BitVec.extractLsb'_append_eq_right

/-! ## Decoder and encoder are inverse to each other -/

@[simp] theorem decodeCommand_encode (i : Instr) : decodeCommand (encode i) = i := by
  rw [decodeCommand, encode_getLsbD_33, encode_getLsbD_32, encode_extractLsb'_din]
  cases i <;> simp [Instr.op, Instr.din]

@[simp] theorem encode_decodeCommand (c : BitVec 34) : encode (decodeCommand c) = c := by
  rw [encode, Machine.decodeCommand_op, Machine.decodeCommand_din]
  calc c.extractLsb' 32 2 ++ c.extractLsb' 0 32
      = c.extractLsb' 0 34 := BitVec.extractLsb'_append_extractLsb'_eq_extractLsb' rfl
    _ = c := BitVec.extractLsb'_eq_self

theorem decode_encode (i : Instr) : decode (encode i).toNat = .ok i := by
  rw [Machine.decode_toNat, decodeCommand_encode]

/-- A table row's bits above the command word's 34 are 0, so a wide enough row loses nothing of it. -/
theorem toNat_mod_of_le (c : BitVec 34) {nbits : Nat} (h : 34 ≤ nbits) : c.toNat % 2 ^ nbits = c.toNat :=
  Nat.mod_eq_of_lt (c.isLt.trans_le (Nat.pow_le_pow_right Nat.two_pos h))

theorem decodeTableWord_encode (i : Instr) {nbits : Nat} (h : 34 ≤ nbits) :
    decodeTableWord nbits (encode i).toNat = some i := by
  rw [decodeTableWord, toNat_mod_of_le _ h, decode_encode]

/-! ## The rows of the opcode map -/

/-- A row looks at `op` alone: its mask is 1 on bits 33 and 32 and 0 on `din`, where its match is 0 too
(30_encoding.md R47). -/
theorem OpcodeRow.admits_encode {r : OpcodeRow} (hr : r ∈ opcodeRows) (i : Instr) :
    r.admits (encode i) = (i.op == r.pattern.extractLsb' 32 2) := by
  have hrow : r.mask = 0b11#2 ++ 0#32 ∧ r.pattern = r.pattern.extractLsb' 32 2 ++ 0#32 := by
    revert r
    decide
  obtain ⟨hmask, hpattern⟩ := hrow
  have hop : i.op &&& 0b11#2 = i.op := BitVec.and_allOnes
  rw [OpcodeRow.admits, hmask, encode, BitVec.and_append, hop, BitVec.and_zero, Bool.eq_iff_iff, beq_iff_eq, beq_iff_eq]
  constructor
  · intro h
    rw [← h]
    exact BitVec.extractLsb'_append_eq_left.symm
  · intro h
    rw [h]
    exact hpattern.symm

/-- The rows that admit an instruction's command word are its own row alone. -/
theorem opcodeRows_filter_admits_encode (i : Instr) :
    (opcodeRows.filter fun r => r.admits (encode i)).map OpcodeRow.mnemonic = [i.mnemonic] := by
  rw [List.filter_congr fun r hr => OpcodeRow.admits_encode hr i]
  cases i <;> rfl

end Sys2Proof

namespace Sys2Proof.Machine

/-! ## A command word on the ports -/

@[simp] theorem fetch_ofInstr (i : Instr) : fetch (Pins.ofInstr i) = i := by
  rw [fetch, Pins.ofInstr_command, decodeCommand_encode]

/-- A command word of a wide enough table row is placed on the ports as the pins that present its instruction. -/
theorem State.withFetchWord_encode_pins (s : State) (i : Instr) {nbits : Nat} (h : 34 ≤ nbits) :
    (s.withFetchWord nbits (encode i).toNat).pins = Pins.ofInstr i := by
  have hop : BitVec.ofNat 2 ((encode i).toNat / 2 ^ 32) = i.op := by
    rw [← Nat.shiftRight_eq_div_pow]
    exact encode_extractLsb'_op i
  have hdin : BitVec.ofNat 32 (encode i).toNat = i.din := encode_extractLsb'_din i
  rw [State.withFetchWord_pins, toNat_mod_of_le _ h, hop, hdin, Pins.ofInstr]

/-- A transaction replaces the pins and the phase, so it does not see a command word placed before it. -/
@[simp] theorem State.withFetchWord_transact (s : State) (nbits w : Nat) (i : Instr) (a : Answer) :
    (s.withFetchWord nbits w).transact i a = s.transact i a := rfl

end Sys2Proof.Machine

namespace Sys2Proof.Proofs

open Sys2Proof.Machine

/-- Settles O1: the decoder, the table word and the pins each hold the encoder's word, and the decoder inverts the
encoder. -/
theorem decodeOfEncodeIsIdentity : Obligations.DecodeOfEncodeIsIdentity := fun i _ =>
  ⟨decode_encode i, decodeTableWord_encode i (by omega), fetch_ofInstr i⟩

/-- Settles O2: a command word is the encoding of what it decodes to; an `op` and an operand are those of the instruction
their pins present. -/
theorem everyCommandWordIsLegal : Obligations.EveryCommandWordIsLegal := by
  constructor
  · intro c
    exact ⟨decodeCommand c, decode_toNat c, wellFormed_eq_true _, encode_decodeCommand c⟩
  · intro op x
    exact ⟨fetch (Pins.drive op x), fetch_op _, fetch_din _⟩

/-- Settles O4: the word is the encoding of the decoded instruction, which only its own row admits. -/
theorem exactlyOneRowAdmitsACommandWord : Obligations.ExactlyOneRowAdmitsACommandWord := by
  intro c
  have hrows := opcodeRows_filter_admits_encode (decodeCommand c)
  rwa [encode_decodeCommand] at hrows

/-- Settles O3: the bits of the encoder's word are those of `op` and `din`, and `op` tells the four operations apart. -/
theorem commandWordFields : Obligations.CommandWordFields := by
  intro i
  refine ⟨rfl, Pins.ofInstr_command i, encode_extractLsb'_din i, ?_, ?_⟩
  · rw [encode_getLsbD_33]
    cases i <;> simp [Instr.op, Instr.din]
  · rw [encode_getLsbD_32]
    cases i <;> simp [Instr.op, Instr.din]

/-- Settles O5: each written word is the encoding of its transaction. -/
theorem writtenCommandWordsDecode : Obligations.WrittenCommandWordsDecode :=
  ⟨decode_encode (.enc 0x12345678#32), decode_encode (.dec 0x91CCD184#32), decode_encode (.enct 0xABCDEF01#32),
    decode_encode (.dect 0x075BCD15#32)⟩

/-- Settles O6: such a number does not fit the one format, which is the decoder's only check. -/
theorem longerWordsAreRejected : Obligations.LongerWordsAreRejected := by
  intro n hn
  have hc : ¬ isCommandWord n = true := by
    rw [isCommandWord, decide_eq_true_iff]
    omega
  rw [decode, if_neg hc]

/-- Settles O7: `eval` of an instruction's command word is the operation's own outputs, and the encoder puts `op` above
`din`. -/
theorem opcodeMapOutputs : Obligations.OpcodeMapOutputs := fun x =>
  ⟨eval_op_din (.enc x), eval_op_din (.dec x), eval_op_din (.enct x), eval_op_din (.dect x), rfl, rfl, rfl, rfl⟩

/-- Settles O8, by the four values of the two `op` bits. -/
theorem opBitsActIndependently : Obligations.OpBitsActIndependently := by
  intro op x
  unfold eval
  cases op.getLsbD 1 <;> cases op.getLsbD 0 <;> rfl

/-- Settles O40: the placed word's pins present the instruction, driven and held, so the step is its transaction, which keeps
nothing of the placing. -/
theorem placedCommandRunsNext : Obligations.PlacedCommandRunsNext := by
  intro s i
  have hpins := s.withFetchWord_encode_pins i (nbits := 40) (by omega)
  rw [step_driven (by rw [State.withFetchWord_phase, Phase.remaining_settling])
    (by rw [hpins, Pins.ofInstr_allDriven]), hpins, fetch_ofInstr]
  rw [exec_eq_transact, exec_eq_transact, State.withFetchWord_transact]

end Sys2Proof.Proofs
end

section
/-! PROOFS. Names and scripts (30_encoding.md R49 to R57): the bits of a word of joined names, and the samples that a
well-formed script leaves. -/

namespace Sys2Proof.Machine

/-! ## The names of the FLAGS bits -/

/-- The 26 names in order sit on bits 0 to 25 (30_encoding.md R50). -/
theorem allFeatures_map_featureBit : allFeatures.map featureBit = List.range 26 := rfl

theorem mem_allFeatures (f : Feature) : f ∈ allFeatures := by
  cases f <;> decide

theorem featureBit_injective : Function.Injective featureBit := by
  have hnodup : (allFeatures.map featureBit).Nodup := allFeatures_map_featureBit ▸ List.nodup_range
  intro f g h
  exact List.inj_on_of_nodup_map hnodup (mem_allFeatures f) (mem_allFeatures g) h

/-- The named bits are exactly the bits 0 to 25. -/
theorem exists_featureBit_eq_iff (j : Nat) : (∃ f, featureBit f = j) ↔ j < 26 := by
  rw [← List.mem_range, ← allFeatures_map_featureBit, List.mem_map]
  simp only [mem_allFeatures, true_and]

theorem featureBit_lt (f : Feature) : featureBit f < 26 := (exists_featureBit_eq_iff _).mp ⟨f, rfl⟩

/-- A feature's mask has the feature's bit alone. -/
theorem featureMask_getLsbD (f : Feature) (j : Nat) : (featureMask f).getLsbD j = true ↔ featureBit f = j := by
  have hf := featureBit_lt f
  simp only [featureMask, BitVec.getLsbD_shiftLeft, BitVec.getLsbD_one, Bool.and_eq_true, Bool.not_eq_true',
    decide_eq_true_eq, decide_eq_false_iff_not]
  omega

/-- A bit of a word of joined names is 1 exactly when it is the bit of one of the names (30_encoding.md R57). -/
theorem flagsOf_getLsbD (fs : List Feature) (j : Nat) :
    (flagsOf fs).getLsbD j = true ↔ ∃ f ∈ fs, featureBit f = j := by
  induction fs with
  | nil => simp [flagsOf]
  | cons g fs ih =>
    rw [flagsOf, BitVec.getLsbD_or, Bool.or_eq_true, featureMask_getLsbD, ih, List.exists_mem_cons_iff]

/-- A word of joined names enables exactly the features named (30_encoding.md R49). -/
theorem enables_flagsOf_iff (fs : List Feature) (f : Feature) : enables (flagsOf fs) f = true ↔ f ∈ fs := by
  rw [enables, flagsOf_getLsbD]
  constructor
  · rintro ⟨g, hg, hbit⟩
    rwa [← featureBit_injective hbit]
  · exact fun hf => ⟨f, hf, rfl⟩

/-- The named bits of a word are the word of the names it enables (30_encoding.md R49). -/
theorem and_flagMask_eq_flagsOf (w : Word) : w &&& flagMask = flagsOf (allFeatures.filter fun g => enables w g) := by
  apply BitVec.eq_of_getLsbD_eq
  intro j _
  rw [Bool.eq_iff_iff, flagsOf_getLsbD, BitVec.getLsbD_and, flagMask_getLsbD, Bool.and_eq_true, decide_eq_true_iff,
    ← exists_featureBit_eq_iff]
  constructor
  · rintro ⟨hw, f, rfl⟩
    exact ⟨f, List.mem_filter.mpr ⟨mem_allFeatures f, hw⟩, rfl⟩
  · rintro ⟨f, hf, rfl⟩
    exact ⟨(List.mem_filter.mp hf).2, f, rfl⟩

/-- A word of joined names has no bit outside the named ones. -/
theorem flagsOf_le_flagMask (fs : List Feature) : flagsOf fs ≤ flagMask := by
  have hmask : flagsOf fs &&& flagMask = flagsOf fs := by
    apply BitVec.eq_of_getLsbD_eq
    intro j _
    rw [Bool.eq_iff_iff, BitVec.getLsbD_and, Bool.and_eq_true, and_iff_left_iff_imp, flagsOf_getLsbD, flagMask_getLsbD,
      decide_eq_true_iff]
    rintro ⟨f, _, rfl⟩
    exact featureBit_lt f
  rw [BitVec.le_def, ← hmask, BitVec.toNat_and]
  exact Nat.and_le_right

/-! ## What the host has sampled -/

/-- What the host keeps of a line executed on the operand word `x`: its label, its command, and `eval` of the command. -/
def sampleOf (l : Line) (x : Word) : Sample :=
  ⟨l.label, instrOf l.mnemonic x, eval (instrOf l.mnemonic x).op (instrOf l.mnemonic x).din⟩

@[simp] theorem sampleOf_label (l : Line) (x : Word) : (sampleOf l x).label = l.label := rfl
@[simp] theorem sampleOf_instr (l : Line) (x : Word) : (sampleOf l x).instr = instrOf l.mnemonic x := rfl

/-- Whatever a line writes before its operand, the command takes the operand word as `din` (30_encoding.md R57). -/
@[simp] theorem instrOf_din (m : Mnemonic) (x : Word) : (instrOf m x).din = x := by
  cases m <;> rfl

/-- One more sample adds its line's label to those seen. -/
theorem filterMap_label_sampleOf_cons (l : Line) (x : Word) (seen : List Sample) :
    (sampleOf l x :: seen).filterMap Sample.label = l.label.toList ++ seen.filterMap Sample.label := by
  rw [List.filterMap_cons, sampleOf_label]
  cases l.label <;> rfl

/-- The answer sampled under a label is that of the newest sample so labelled. -/
theorem sampledAt_eq_find? (m : Label) (seen : List Sample) :
    sampledAt m seen = (seen.find? fun z => z.label = some m).map Sample.answer := by
  induction seen with
  | nil => rfl
  | cons z seen ih =>
    rw [sampledAt, List.find?_cons]
    by_cases h : z.label = some m
    · simp [h]
    · simp [h, ih]

/-- A label that some sample carries has an answer, so an `@` form of it gives a word. -/
theorem exists_map_sampledAt {m : Label} {seen : List Sample} (f : Answer → Word)
    (h : (seen.filterMap Sample.label).contains m = true) : ∃ x, (sampledAt m seen).map f = some x := by
  obtain ⟨z, hz, hlabel⟩ := List.mem_filterMap.mp (List.contains_iff_mem.mp h)
  rw [← Option.isSome_iff_exists, Option.isSome_map, sampledAt_eq_find?, Option.isSome_map, List.find?_isSome]
  exact ⟨z, hz, decide_eq_true hlabel⟩

/-- The word of an `@` form is an output of some sample with the label. -/
theorem exists_sample_of_map_sampledAt {m : Label} {seen : List Sample} {f : Answer → Word} {x : Word}
    (h : (sampledAt m seen).map f = some x) : ∃ z ∈ seen, z.label = some m ∧ x = f z.answer := by
  rw [sampledAt_eq_find?, Option.map_map, Option.map_eq_some_iff] at h
  obtain ⟨z, hfind, hx⟩ := h
  have hlabel : decide (z.label = some m) = true := List.find?_some (p := fun z : Sample => z.label = some m) hfind
  exact ⟨z, List.mem_of_find?_eq_some hfind, of_decide_eq_true hlabel, hx.symm⟩

/-! ## Operands -/

/-- A well-formed operand gives a word, with the labels seen being those of the samples so far. -/
theorem exists_operandWord {seen : List Sample} {o : Operand}
    (h : o.wellFormed (seen.filterMap Sample.label) = true) : ∃ x, operandWord seen o = some x := by
  cases o with
  | num n => exact ⟨_, if_pos (of_decide_eq_true h)⟩
  | names fs =>
    have hne : ¬ fs.isEmpty = true := by simpa [Operand.wellFormed] using h
    exact ⟨_, if_neg hne⟩
  | all => exact ⟨_, rfl⟩
  | doutOf m => exact exists_map_sampledAt Answer.dout h
  | permutedOf m => exact exists_map_sampledAt Answer.permuted h

/-- What an operand means when it gives the word `x` (30_encoding.md R57): its own numeral, names or `ALL`, or an output of
a sample among `seen`. -/
def operandMeans (seen : List Sample) (x : Word) : Operand → Prop
  | .num n => x.toNat = n
  | .names fs => x = flagsOf fs
  | .all => x = 0x03FFFFFF#32
  | .doutOf m => ∃ z ∈ seen, z.label = some m ∧ x = z.answer.dout
  | .permutedOf m => ∃ z ∈ seen, z.label = some m ∧ x = z.answer.permuted

theorem operandMeans_of_operandWord {seen : List Sample} {o : Operand} {x : Word} (h : operandWord seen o = some x) :
    operandMeans seen x o := by
  cases o with
  | num n =>
    obtain ⟨hn, hx⟩ := Option.ite_none_right_eq_some.mp h
    rw [operandMeans, ← Option.some.inj hx]
    exact Nat.mod_eq_of_lt hn
  | names fs =>
    obtain ⟨_, hx⟩ := Option.ite_none_left_eq_some.mp h
    exact (Option.some.inj hx).symm
  | all => exact (Option.some.inj h).symm
  | doutOf m => exact exists_sample_of_map_sampledAt h
  | permutedOf m => exact exists_sample_of_map_sampledAt h

/-! ## The samples a script leaves -/

/-- `new` are the samples, oldest first, that the lines of `p` leave after `seen`: one for each line, the line's own on the
word that its operand gives with the samples before it (30_encoding.md R56). -/
def LeavesSamples (p : Script) (seen new : List Sample) : Prop :=
  new.length = p.length ∧
    ∀ (k : Nat) (l : Line), p[k]? = some l →
      ∃ x, operandWord ((new.take k).reverse ++ seen) l.operand = some x ∧ new[k]? = some (sampleOf l x)

theorem LeavesSamples.nil (seen : List Sample) : LeavesSamples [] seen [] :=
  ⟨rfl, fun _ _ hl => nomatch hl⟩

/-- One line above a script adds its own sample before the others. -/
theorem LeavesSamples.cons {p : Script} {seen new : List Sample} {l : Line} {x : Word}
    (hx : operandWord seen l.operand = some x) (h : LeavesSamples p (sampleOf l x :: seen) new) :
    LeavesSamples (l :: p) seen (sampleOf l x :: new) := by
  obtain ⟨hlength, hlines⟩ := h
  refine ⟨congrArg (· + 1) hlength, fun k l' hl' => ?_⟩
  cases k with
  | zero =>
    obtain rfl : l = l' := Option.some.inj hl'
    exact ⟨x, hx, rfl⟩
  | succ k =>
    obtain ⟨x', hx', hnew⟩ := hlines k l' hl'
    refine ⟨x', ?_, hnew⟩
    rwa [List.take_succ_cons, List.reverse_cons, List.append_assoc]

/-- A sample that an `@` form of line `k` finds was left by an earlier line with that label. -/
theorem LeavesSamples.exists_earlier {p : Script} {new : List Sample} (h : LeavesSamples p [] new) {k : Nat} {m : Label}
    {x : Word} (f : Answer → Word) (hz : ∃ z ∈ (new.take k).reverse, z.label = some m ∧ x = f z.answer) :
    ∃ j z, j < k ∧ new[j]? = some z ∧ z.label = some m ∧ p[j]?.map Line.label = some (some m) ∧ x = f z.answer := by
  obtain ⟨hlength, hlines⟩ := h
  obtain ⟨z, hz, hm, hx⟩ := hz
  obtain ⟨j, hj⟩ := List.mem_iff_getElem?.mp (List.mem_reverse.mp hz)
  rw [List.getElem?_take, Option.ite_none_right_eq_some] at hj
  obtain ⟨hjk, hj⟩ := hj
  obtain ⟨hjlength, _⟩ := List.getElem?_eq_some_iff.mp hj
  have hline := List.getElem?_eq_getElem (hlength ▸ hjlength : j < List.length p)
  obtain ⟨_, _, hsample⟩ := hlines j _ hline
  obtain rfl := Option.some.inj (hj.symm.trans hsample)
  exact ⟨j, _, hjk, hj, hm, by rw [hline, Option.map_some, ← hm, sampleOf_label], hx⟩

/-- A well-formed script runs to its end and leaves the samples of its lines on top of those before it. -/
theorem runScript_of_wellFormed (p : Script) (seen : List Sample) (s : State)
    (h : Script.wellFormed (seen.filterMap Sample.label) p = true) :
    ∃ new t, runScript p seen s = some (new.reverse ++ seen, t) ∧ LeavesSamples p seen new := by
  induction p generalizing seen s with
  | nil => exact ⟨[], s, rfl, .nil seen⟩
  | cons l p ih =>
    rw [Script.wellFormed, Bool.and_eq_true, Line.wellFormed, Bool.and_eq_true] at h
    obtain ⟨⟨hoperand, _⟩, hp⟩ := h
    obtain ⟨x, hx⟩ := exists_operandWord hoperand
    rw [← filterMap_label_sampleOf_cons l x] at hp
    obtain ⟨new, t, hrun, hnew⟩ := ih (sampleOf l x :: seen) _ hp
    refine ⟨sampleOf l x :: new, t, ?_, .cons hx hnew⟩
    rw [runScript_cons hx, List.reverse_cons, List.append_assoc]
    exact hrun

/-- A well-formed script run with nothing sampled before it: the host's list is the samples of its lines, newest first. -/
theorem runScript_start_of_wellFormed {p : Script} (s : State) (h : Script.wellFormed [] p = true) :
    ∃ new t, runScript p [] s = some (new.reverse, t) ∧ LeavesSamples p [] new := by
  simpa only [List.append_nil] using runScript_of_wellFormed p [] s h

end Sys2Proof.Machine

namespace Sys2Proof.Proofs

open Sys2Proof.Machine

/-- Settles O55: each word written out is the one computed from the table of names. -/
theorem featureTable : Obligations.FeatureTable :=
  ⟨allFeatures_map_featureBit, by decide, by decide, by decide⟩

/-- Settles O56, from the bits of a word of joined names. -/
theorem joinedNamesEnableExactlyThose : Obligations.JoinedNamesEnableExactlyThose := fun fs f =>
  ⟨enables_flagsOf_iff fs f, flagsOf_le_flagMask fs, and_flagMask_eq_flagsOf⟩

/-- Settles O54: the list of samples reversed is that of the lines, oldest first. -/
theorem wellFormedScriptsRunToTheirEnd : Obligations.WellFormedScriptsRunToTheirEnd := by
  intro p s h
  obtain ⟨new, t, hrun, hlength, hlines⟩ := runScript_start_of_wellFormed s h
  refine ⟨new.reverse, t, hrun, by rw [List.length_reverse, hlength], fun k l hl => ?_⟩
  rw [List.reverse_reverse, ← List.append_nil (new.take k).reverse]
  exact hlines k l hl

/-- Settles O57: a line's operand word is the `din` of its command, and an `@` form's word is an output of an earlier line's
sample. -/
theorem scriptLinesMeanWhatTheyName : Obligations.ScriptLinesMeanWhatTheyName := by
  intro p s h
  obtain ⟨new, t, hrun, hnew⟩ := runScript_start_of_wellFormed s h
  refine ⟨new.reverse, t, hrun, fun k l hl => ?_⟩
  obtain ⟨x, hx, hsample⟩ := hnew.2 k l hl
  rw [List.append_nil] at hx
  have hmeans := operandMeans_of_operandWord hx
  rw [List.reverse_reverse]
  refine ⟨_, hsample, ?_, ?_⟩
  · rw [sampleOf_instr, instrOf_din]
    cases l.mnemonic <;> rfl
  · rw [sampleOf_instr, instrOf_din]
    cases ho : l.operand <;> rw [ho] at hmeans
    case num => exact hmeans
    case names => exact hmeans
    case all => exact hmeans
    case doutOf => exact hnew.exists_earlier Answer.dout hmeans
    case permutedOf => exact hnew.exists_earlier Answer.permuted hmeans

end Sys2Proof.Proofs
end

section
/-! PROOFS. The byte permutation (40_byte_permutation.md): the bit maps of both directions, the byte maps that
follow from them, and the laws between the two directions. -/

namespace Sys2Proof.Machine

/-! ## Terms that stay within a mask -/

/-- A word has no bit outside a mask. -/
def WithinMask (m w : Word) : Prop := w &&& ~~~m = 0#32

theorem withinMask_iff_and_eq {m w : Word} : WithinMask m w ↔ w &&& m = w := by
  have hsplit : w &&& m ||| w &&& ~~~m = w := by
    rw [← BitVec.and_or_distrib_left, BitVec.or_not_self, BitVec.and_allOnes]
  constructor
  · intro h
    rwa [show w &&& ~~~m = 0#32 from h, BitVec.or_zero] at hsplit
  · intro h
    rw [WithinMask, ← h, BitVec.and_assoc, BitVec.and_not_self]
    exact BitVec.and_zero

theorem withinMask_allOnes (w : Word) : WithinMask (BitVec.allOnes 32) w :=
  withinMask_iff_and_eq.mpr BitVec.and_allOnes

theorem withinMask_and (w m : Word) : WithinMask m (w &&& m) :=
  withinMask_iff_and_eq.mpr (by rw [BitVec.and_assoc, BitVec.and_self])

section
variable {m n a b : Word}

theorem WithinMask.shiftLeft (h : WithinMask m a) (k : Nat) (hk : m <<< k = n) : WithinMask n (a <<< k) :=
  withinMask_iff_and_eq.mpr (by rw [← hk, ← BitVec.shiftLeft_and_distrib, withinMask_iff_and_eq.mp h])

theorem WithinMask.ushiftRight (h : WithinMask m a) (k : Nat) (hk : m >>> k = n) : WithinMask n (a >>> k) :=
  withinMask_iff_and_eq.mpr (by rw [← hk, ← BitVec.ushiftRight_and_distrib, withinMask_iff_and_eq.mp h])

/-- Words within disjoint masks share no bit. -/
theorem WithinMask.and_eq_zero (ha : WithinMask m a) (hb : WithinMask n b) (hmn : m &&& n = 0#32) : a &&& b = 0#32 :=
  calc a &&& b = (a &&& m) &&& (b &&& n) := by rw [withinMask_iff_and_eq.mp ha, withinMask_iff_and_eq.mp hb]
    _ = (a &&& b) &&& (m &&& n) := by ac_rfl
    _ = 0#32 := by rw [hmn, BitVec.and_zero]

/-- Where no bit position receives a 1 from both, OR is XOR. -/
theorem xor_eq_or_of_and_eq_zero (h : a &&& b = 0#32) : a ^^^ b = a ||| b := by
  apply BitVec.eq_of_getLsbD_eq
  intro j _
  have hj : (a.getLsbD j && b.getLsbD j) = false := by rw [← BitVec.getLsbD_and, h, BitVec.getLsbD_zero]
  rw [BitVec.getLsbD_xor, BitVec.getLsbD_or]
  revert hj
  cases a.getLsbD j <;> cases b.getLsbD j <;> decide

end

/-- Four terms within four pairwise disjoint masks are pairwise disjoint, and their OR is their sum and their XOR
(40_byte_permutation.md R61). -/
theorem or_eq_add_and_xor_of_withinMask {ma mb mc md a b c d : Word}
    (ha : WithinMask ma a) (hb : WithinMask mb b) (hc : WithinMask mc c) (hd : WithinMask md d)
    (hm : [ma, mb, mc, md].Pairwise fun m n => m &&& n = 0#32) :
    a &&& b = 0#32 ∧ a &&& c = 0#32 ∧ a &&& d = 0#32 ∧ b &&& c = 0#32 ∧ b &&& d = 0#32 ∧ c &&& d = 0#32 ∧
    a ||| b ||| c ||| d = a + b + c + d ∧ a ||| b ||| c ||| d = a ^^^ b ^^^ c ^^^ d := by
  simp only [List.pairwise_cons, List.forall_mem_cons] at hm
  obtain ⟨⟨mab, mac, mad, -⟩, ⟨mbc, mbd, -⟩, ⟨mcd, -⟩, -⟩ := hm
  have hab := ha.and_eq_zero hb mab
  have hac := ha.and_eq_zero hc mac
  have had := ha.and_eq_zero hd mad
  have hbc := hb.and_eq_zero hc mbc
  have hbd := hb.and_eq_zero hd mbd
  have hcd := hc.and_eq_zero hd mcd
  have habc : (a ||| b) &&& c = 0#32 := by rw [BitVec.and_or_distrib_right, hac, hbc, BitVec.or_zero]
  have habcd : (a ||| b ||| c) &&& d = 0#32 := by
    rw [BitVec.and_or_distrib_right, BitVec.and_or_distrib_right, had, hbd, hcd, BitVec.or_zero, BitVec.or_zero]
  refine ⟨hab, hac, had, hbc, hbd, hcd, ?_, ?_⟩
  · rw [BitVec.add_eq_or_of_and_eq_zero _ _ hab, BitVec.add_eq_or_of_and_eq_zero _ _ habc,
      BitVec.add_eq_or_of_and_eq_zero _ _ habcd]
  · rw [xor_eq_or_of_and_eq_zero hab, xor_eq_or_of_and_eq_zero habc, xor_eq_or_of_and_eq_zero habcd]

/-! ## Bit maps -/

section
variable {j : Nat}

theorem srcF_lt (h : j < 32) : srcF j < 32 := by unfold srcF; split_ifs <;> omega
theorem dstF_lt (h : j < 32) : dstF j < 32 := by unfold dstF; split_ifs <;> omega
theorem srcF_dstF (h : j < 32) : srcF (dstF j) = j := by unfold srcF dstF; split_ifs <;> omega
theorem dstF_srcF (h : j < 32) : dstF (srcF j) = j := by unfold srcF dstF; split_ifs <;> omega

end

/-- Output bit `j` of `P` is input bit `src j`. -/
def HasBitMap (P : Word → Word) (src : Nat → Nat) : Prop :=
  ∀ (w : Word) (j : Nat), j < 32 → (P w).getLsbD j = w.getLsbD (src j)

/-- The bit map of `PERM_F` (40_byte_permutation.md R64). -/
theorem permF_hasBitMap : HasBitMap permF srcF := by
  intro f j hj
  rw [permF_getLsbD, if_pos hj]
  simp only [srcF, apply_ite f.getLsbD]

/-- The bit map of `PERM_I` (40_byte_permutation.md R67). -/
theorem permI_hasBitMap : HasBitMap permI dstF := by
  intro p i hi
  rw [permI_getLsbD, if_pos hi]
  simp only [dstF, apply_ite p.getLsbD]

section
variable {P : Word → Word} {src : Nat → Nat}

/-- A map that carries bits 0 to 7 of one byte position to those of another carries the byte. -/
theorem HasBitMap.byteAt_eq (hP : HasBitMap P src) (v : Word) {k l : Nat} (hk : k < 4)
    (h : ∀ j < 8, src (8 * k + j) = 8 * l + j) : byteAt k (P v) = byteAt l v := by
  apply BitVec.eq_of_getLsbD_eq
  intro j hj
  rw [byteAt_getLsbD, byteAt_getLsbD, hP v _ (by omega), h j hj]

/-- A bijective bit map keeps the number of 1 bits. -/
theorem HasBitMap.onesCount_eq (hP : HasBitMap P src) (hsrc : ((List.range 32).map src).Perm (List.range 32)) (w : Word) :
    onesCount (P w) = onesCount w := by
  simp only [onesCount, ← List.countP_eq_length_filter]
  calc (List.range 32).countP (fun j => (P w).getLsbD j)
      = (List.range 32).countP ((fun i => w.getLsbD i) ∘ src) :=
        List.countP_congr fun j hj => by rw [hP w j (List.mem_range.mp hj), Function.comp_apply]
    _ = ((List.range 32).map src).countP (fun i => w.getLsbD i) := List.countP_map.symm
    _ = (List.range 32).countP (fun i => w.getLsbD i) := hsrc.countP_eq _

/-- A function with a bijective bit map only moves bits (40_byte_permutation.md R71). -/
theorem HasBitMap.movesBitsOnly (hP : HasBitMap P src) (hsrc : ((List.range 32).map src).Perm (List.range 32)) :
    movesBitsOnly P := by
  have hlt : ∀ j < 32, src j < 32 := fun j hj =>
    List.mem_range.mp (hsrc.mem_iff.mp (List.mem_map_of_mem (List.mem_range.mpr hj)))
  intro a b
  refine ⟨?_, ?_, ?_, ?_, hP.onesCount_eq hsrc a⟩ <;> apply BitVec.eq_of_getLsbD_eq <;> intro j hj
  · rw [hP _ j hj, BitVec.getLsbD_and, BitVec.getLsbD_and, hP a j hj, hP b j hj]
  · rw [hP _ j hj, BitVec.getLsbD_or, BitVec.getLsbD_or, hP a j hj, hP b j hj]
  · rw [hP _ j hj, BitVec.getLsbD_xor, BitVec.getLsbD_xor, hP a j hj, hP b j hj]
  · rw [hP _ j hj, BitVec.getLsbD_not, BitVec.getLsbD_not, hP a j hj, decide_eq_true hj, decide_eq_true (hlt j hj)]

end

/-- A function that only moves bits takes an XOR to the XOR of its parts. -/
theorem movesBitsOnly.map_xor {P : Word → Word} (h : movesBitsOnly P) (a b : Word) : P (a ^^^ b) = P a ^^^ P b := by
  obtain ⟨-, -, hxor, -⟩ := h a b
  exact hxor

theorem permF_movesBitsOnly : movesBitsOnly permF := permF_hasBitMap.movesBitsOnly (by decide)

theorem permI_movesBitsOnly : movesBitsOnly permI := permI_hasBitMap.movesBitsOnly (by decide)

/-! ## Byte maps -/

section
variable (b3 b2 b1 b0 : Byte)

@[simp] theorem byteAt_zero_ofBytes : byteAt 0 (ofBytes b3 b2 b1 b0) = b0 := by
  apply BitVec.eq_of_getLsbD_eq
  intro j hj
  rw [byteAt_getLsbD, ofBytes_getLsbD]
  simp [hj]

@[simp] theorem byteAt_one_ofBytes : byteAt 1 (ofBytes b3 b2 b1 b0) = b1 := by
  apply BitVec.eq_of_getLsbD_eq
  intro j hj
  rw [byteAt_getLsbD, ofBytes_getLsbD]
  simp [hj, show 8 + j < 16 by omega]

@[simp] theorem byteAt_two_ofBytes : byteAt 2 (ofBytes b3 b2 b1 b0) = b2 := by
  apply BitVec.eq_of_getLsbD_eq
  intro j hj
  rw [byteAt_getLsbD, ofBytes_getLsbD]
  simp [hj, show ¬ 16 + j < 8 by omega, show 16 + j < 24 by omega]

@[simp] theorem byteAt_three_ofBytes : byteAt 3 (ofBytes b3 b2 b1 b0) = b3 := by
  apply BitVec.eq_of_getLsbD_eq
  intro j hj
  rw [byteAt_getLsbD, ofBytes_getLsbD]
  simp [hj, show ¬ 24 + j < 8 by omega, show ¬ 24 + j < 16 by omega]

end

/-- Every word is four bytes, so a law of the byte maps is proved on `ofBytes` alone. -/
theorem exists_eq_ofBytes (v : Word) : ∃ b3 b2 b1 b0 : Byte, v = ofBytes b3 b2 b1 b0 :=
  ⟨_, _, _, _, (ofBytes_byteAt v).symm⟩

/-- Words are equal exactly when their bytes are. -/
theorem ofBytes_inj {b3 b2 b1 b0 c3 c2 c1 c0 : Byte} :
    ofBytes b3 b2 b1 b0 = ofBytes c3 c2 c1 c0 ↔ b3 = c3 ∧ b2 = c2 ∧ b1 = c1 ∧ b0 = c0 := by
  constructor
  · intro h
    exact ⟨by simpa using congrArg (byteAt 3) h, by simpa using congrArg (byteAt 2) h,
      by simpa using congrArg (byteAt 1) h, by simpa using congrArg (byteAt 0) h⟩
  · rintro ⟨rfl, rfl, rfl, rfl⟩
    rfl

/-- Which byte each byte of `PERM_F` is (40_byte_permutation.md R63). -/
theorem byteAt_permF (v : Word) : byteAt 0 (permF v) = byteAt 1 v ∧ byteAt 1 (permF v) = byteAt 3 v ∧
    byteAt 2 (permF v) = byteAt 0 v ∧ byteAt 3 (permF v) = byteAt 2 v :=
  have byteOf {k l : Nat} := permF_hasBitMap.byteAt_eq v (k := k) (l := l)
  ⟨byteOf (by decide) (by decide), byteOf (by decide) (by decide), byteOf (by decide) (by decide),
    byteOf (by decide) (by decide)⟩

/-- Which byte each byte of `PERM_I` is (40_byte_permutation.md R66). -/
theorem byteAt_permI (v : Word) : byteAt 0 (permI v) = byteAt 2 v ∧ byteAt 1 (permI v) = byteAt 0 v ∧
    byteAt 2 (permI v) = byteAt 3 v ∧ byteAt 3 (permI v) = byteAt 1 v :=
  have byteOf {k l : Nat} := permI_hasBitMap.byteAt_eq v (k := k) (l := l)
  ⟨byteOf (by decide) (by decide), byteOf (by decide) (by decide), byteOf (by decide) (by decide),
    byteOf (by decide) (by decide)⟩

/-- The byte map of `PERM_F` on the four bytes of a word (40_byte_permutation.md R63). -/
@[simp] theorem permF_ofBytes (b3 b2 b1 b0 : Byte) : permF (ofBytes b3 b2 b1 b0) = ofBytes b2 b0 b3 b1 := by
  obtain ⟨h0, h1, h2, h3⟩ := byteAt_permF (ofBytes b3 b2 b1 b0)
  rw [← ofBytes_byteAt (permF _), h0, h1, h2, h3, byteAt_two_ofBytes, byteAt_zero_ofBytes, byteAt_three_ofBytes,
    byteAt_one_ofBytes]

/-- The byte map of `PERM_I` on the four bytes of a word (40_byte_permutation.md R66). -/
@[simp] theorem permI_ofBytes (q3 q2 q1 q0 : Byte) : permI (ofBytes q3 q2 q1 q0) = ofBytes q1 q3 q0 q2 := by
  obtain ⟨h0, h1, h2, h3⟩ := byteAt_permI (ofBytes q3 q2 q1 q0)
  rw [← ofBytes_byteAt (permI _), h0, h1, h2, h3, byteAt_one_ofBytes, byteAt_three_ofBytes, byteAt_zero_ofBytes,
    byteAt_two_ofBytes]

/-! ## Laws between the two directions -/

@[simp] theorem permI_permF (x : Word) : permI (permF x) = x := by
  obtain ⟨b3, b2, b1, b0, rfl⟩ := exists_eq_ofBytes x
  rw [permF_ofBytes, permI_ofBytes]

@[simp] theorem permF_permI (x : Word) : permF (permI x) = x := by
  obtain ⟨b3, b2, b1, b0, rfl⟩ := exists_eq_ofBytes x
  rw [permI_ofBytes, permF_ofBytes]

theorem permF_bijective : Function.Bijective permF :=
  Function.bijective_iff_has_inverse.mpr ⟨permI, permI_permF, permF_permI⟩

theorem permI_bijective : Function.Bijective permI :=
  Function.bijective_iff_has_inverse.mpr ⟨permF, permF_permI, permI_permF⟩

/-- `PERM_F` applied three times is `PERM_I` (40_byte_permutation.md R69). -/
theorem permF_permF_permF (x : Word) : permF (permF (permF x)) = permI x := by
  obtain ⟨b3, b2, b1, b0, rfl⟩ := exists_eq_ofBytes x
  rw [permF_ofBytes, permF_ofBytes, permF_ofBytes, permI_ofBytes]

/-- The bytes move in one cycle, so a fixed point of `PERM_F` has four equal bytes (40_byte_permutation.md R72). -/
theorem permF_eq_self_iff (x : Word) : permF x = x ↔ ∃! b : Byte, x = ofBytes b b b b := by
  constructor
  · intro h
    obtain ⟨b3, b2, b1, b0, rfl⟩ := exists_eq_ofBytes x
    rw [permF_ofBytes, ofBytes_inj] at h
    obtain ⟨rfl, rfl, rfl, -⟩ := h
    exact ⟨_, rfl, fun c hc => (ofBytes_inj.mp hc).1.symm⟩
  · rintro ⟨b, rfl, -⟩
    exact permF_ofBytes b b b b

/-- Inverse permutations have the same fixed points. -/
theorem permI_eq_self_iff (x : Word) : permI x = x ↔ permF x = x := by
  constructor
  · intro h
    rw [← h, permF_permI, h]
  · intro h
    rw [← h, permI_permF, h]

end Sys2Proof.Machine

namespace Sys2Proof.Proofs

open Sys2Proof.Machine

/-- Settles O9: each mask moves with its term to a byte position of its own. -/
theorem termsOccupyDifferentBytes : Obligations.TermsOccupyDifferentBytes := by
  intro v
  constructor
  · have hesi : WithinMask 0x0000FF00#32 ((v >>> 24) <<< 8) :=
      ((withinMask_allOnes v).ushiftRight 24 (n := 0x000000FF#32) (by decide)).shiftLeft 8 (by decide)
    have hedx : WithinMask 0xFF000000#32 ((v &&& 0x00FF0000#32) <<< 8) :=
      (withinMask_and v 0x00FF0000#32).shiftLeft 8 (by decide)
    have hdh : WithinMask 0x000000FF#32 ((v &&& 0x0000FF00#32) >>> 8) :=
      (withinMask_and v 0x0000FF00#32).ushiftRight 8 (by decide)
    have hdl : WithinMask 0x00FF0000#32 ((v &&& 0x000000FF#32) <<< 16) :=
      (withinMask_and v 0x000000FF#32).shiftLeft 16 (by decide)
    exact ⟨hesi, hedx, hdh, hdl, or_eq_add_and_xor_of_withinMask hesi hedx hdh hdl (by decide)⟩
  · have hesi : WithinMask 0xFF000000#32 ((v >>> 8) <<< 24) :=
      ((withinMask_allOnes v).ushiftRight 8 (n := 0x00FFFFFF#32) (by decide)).shiftLeft 24 (by decide)
    have hedx : WithinMask 0x00FF0000#32 ((v >>> 8) &&& 0x00FF0000#32) := withinMask_and _ _
    have hdh : WithinMask 0x0000FF00#32 ((v <<< 8) &&& 0x0000FF00#32) := withinMask_and _ _
    have hdl : WithinMask 0x000000FF#32 ((v >>> 16) &&& 0x000000FF#32) := withinMask_and _ _
    exact ⟨hesi, hedx, hdh, hdl, or_eq_add_and_xor_of_withinMask hesi hedx hdh hdl (by decide)⟩

/-- Settles O10: the byte map, and the source's vector computed. -/
theorem permFMovesBytes : Obligations.PermFMovesBytes :=
  ⟨permF_ofBytes, byteAt_permF, by decide, by decide⟩

/-- Settles O11: the bit map at `j`, and at `dstF j`, which `srcF` undoes. -/
theorem permFMovesBits : Obligations.PermFMovesBits := by
  intro f j hj
  refine ⟨permF_hasBitMap f j hj, ?_, srcF_lt hj, dstF_lt hj, srcF_dstF hj, dstF_srcF hj⟩
  rw [permF_hasBitMap f _ (dstF_lt hj), srcF_dstF hj]

/-- Settles O12: the byte map, and the bit map at `i` and at `srcF i`, which `dstF` undoes. -/
theorem permIMovesBytesAndBits : Obligations.PermIMovesBytesAndBits := by
  refine ⟨permI_ofBytes, fun p i hi => ⟨permI_hasBitMap p i hi, ?_⟩⟩
  rw [permI_hasBitMap p _ (srcF_lt hi), dstF_srcF hi]

/-- Settles O13: the byte maps undo each other. -/
theorem permutationsAreInverse : Obligations.PermutationsAreInverse :=
  ⟨fun x => ⟨permI_permF x, permF_permI x⟩, permF_bijective, permI_bijective⟩

/-- Settles O14: the third power is the inverse, so the fourth is the identity; `0x03020100` moves under every smaller
power. -/
theorem permFHasOrderFour : Obligations.PermFHasOrderFour := by
  refine ⟨fun x => ⟨?_, permF_permF_permF x⟩, fun b3 b2 b1 b0 => ?_, ⟨0x03020100#32, by decide⟩,
    ⟨0x03020100#32, by decide⟩, ⟨0x03020100#32, by decide⟩, ?_, by decide, by decide, by decide⟩
  · rw [permF_permF_permF, permI_permF]
  · rw [permF_ofBytes, permF_ofBytes]
  · intro h
    exact absurd (congrFun h 0x03020100#32) (by decide)

/-- Settles O15: both bit maps are bijective, and `PERM_F` of an XOR is the XOR of its parts. -/
theorem permutationsMoveBitsOnly : Obligations.PermutationsMoveBitsOnly := by
  refine ⟨permF_movesBitsOnly, permI_movesBitsOnly, by decide, fun f => ?_⟩
  rw [permF_movesBitsOnly.map_xor, permF_permI]

/-- Settles O16: the fixed points of `PERM_F` are those of `PERM_I`, and a word's byte is read back from it. -/
theorem fixedPointsHaveEqualBytes : Obligations.FixedPointsHaveEqualBytes :=
  ⟨fun x => ⟨permF_eq_self_iff x, (permI_eq_self_iff x).trans (permF_eq_self_iff x)⟩,
    fun _ _ h => (ofBytes_inj.mp h).1⟩

end Sys2Proof.Proofs
end

section
/-! PROOFS. The key stage (41_fixed_xor_cipher.md): `XORK` as XOR with the key, bit by bit and as a word, and what becomes of
the key under `PERM_F`. -/

namespace Sys2Proof.Machine

/-! ## The key -/

/-- The sixteen bit positions where the key has a 1 (30_encoding.md R54). -/
theorem key_getLsbD : ∀ j < 32,
    key.getLsbD j = decide (j ∈ [1, 4, 6, 7, 8, 9, 14, 15, 18, 20, 21, 23, 24, 26, 29, 31]) := by
  decide

/-- The key's bytes, from byte position 3 down (30_encoding.md R54). -/
theorem key_eq_ofBytes : key = ofBytes 0xA5#8 0xB4#8 0xC3#8 0xD2#8 := by decide

theorem onesCount_key : onesCount key = 16 := by decide

/-- The key's bytes are moved by `PERM_F` (41_fixed_xor_cipher.md R75). -/
theorem permF_key : permF key = 0xB4D2A5C3#32 := by
  rw [key_eq_ofBytes, permF_ofBytes]
  decide

theorem permF_key_ne_key : permF key ≠ key := by
  rw [permF_key]
  decide

/-! ## `XORK` on a word -/

/-- The bits that `XORK` changes are those of the key. -/
@[simp] theorem xork_xor_self (v : Word) : xork v ^^^ v = key := by
  rw [xork, BitVec.xor_comm v key, BitVec.xor_assoc, BitVec.xor_self, BitVec.xor_zero]

/-- `XORK` undoes itself (41_fixed_xor_cipher.md R74). -/
theorem xork_involutive : Function.Involutive xork := by
  intro v
  rw [xork, xork, BitVec.xor_assoc, BitVec.xor_self, BitVec.xor_zero]

@[simp] theorem xork_xork (v : Word) : xork (xork v) = v := xork_involutive v

theorem xork_bijective : Function.Bijective xork := xork_involutive.bijective

/-- A fixed point would leave no bit of the key set (41_fixed_xor_cipher.md R75). -/
theorem xork_ne_self (v : Word) : xork v ≠ v := by
  intro h
  have hkey : key = 0#32 := by rw [← xork_xor_self v, h, BitVec.xor_self]
  exact absurd hkey (by decide)

/-! ## `XORK` and `PERM_F` -/

/-- `PERM_F` carries `XORK` to the XOR with the moved key (41_fixed_xor_cipher.md R75). -/
theorem permF_xork (v : Word) : permF (xork v) = permF v ^^^ permF key := permF_movesBitsOnly.map_xor v key

/-- The stages would commute at a word only if `PERM_F` left the key in place. -/
theorem permF_xork_eq_xork_permF_iff (v : Word) : permF (xork v) = xork (permF v) ↔ permF key = key := by
  rw [permF_xork, xork, BitVec.xor_right_inj]

end Sys2Proof.Machine

namespace Sys2Proof.Proofs

open Sys2Proof.Machine

/-- Settles O17: each bit is XORed with the key's own, which is a 1 at the sixteen positions. -/
theorem xorkInvertsTheKeyBits : Obligations.XorkInvertsTheKeyBits := by
  refine ⟨fun v j hj => ?_, fun _ => rfl, key_eq_ofBytes, by decide, by decide, by decide, by decide⟩
  rw [xork_getLsbD, key_getLsbD j hj]

/-- Settles O18: an involution is a bijection. -/
theorem xorkIsAnInvolution : Obligations.XorkIsAnInvolution :=
  ⟨xork_xork, xork_bijective⟩

/-- Settles O19: the bits changed are the key's sixteen, and `PERM_F` moves the key. -/
theorem xorkChangesSixteenBits : Obligations.XorkChangesSixteenBits := by
  intro v
  refine ⟨xork_ne_self v, ?_, permF_xork v, ?_, ?_⟩
  · rw [xork_xor_self, onesCount_key]
  · rw [permF_xork, permF_key]
  · rw [ne_eq, permF_xork_eq_xork_permF_iff]
    exact permF_key_ne_key

end Sys2Proof.Proofs
end

section
/-! PROOFS. The encode family (42_encode.md): where the don't-care bits of the operand go, what confining the operand to the
26 named bits does, and the two operations assembled from these. -/

namespace Sys2Proof.Machine

/-! ## Fields of a word -/

/-- A bit map that carries a run of bits in order carries the field they make. -/
theorem HasBitMap.extractLsb'_eq {P : Word → Word} {src : Nat → Nat} (hP : HasBitMap P src) (v : Word) {k l n : Nat}
    (hk : k + n ≤ 32) (h : ∀ j < n, src (k + j) = l + j) : (P v).extractLsb' k n = v.extractLsb' l n := by
  apply BitVec.eq_of_getLsbD_eq
  intro j hj
  rw [BitVec.getLsbD_extractLsb', BitVec.getLsbD_extractLsb', hP v _ (by omega), h j hj]

/-- A field of `XORK` is the field XORed with the key's (41_fixed_xor_cipher.md R73). -/
theorem extractLsb'_xork (v : Word) (k n : Nat) : (xork v).extractLsb' k n = v.extractLsb' k n ^^^ key.extractLsb' k n :=
  BitVec.extractLsb'_xor

/-! ## The don't-care bits -/

/-- Bits 10 to 15 of `PERM_F` come from bits 26 to 31, in order (42_encode.md R82). -/
theorem srcF_ten_add : ∀ k < 6, srcF (10 + k) = 26 + k := by decide

theorem permF_extractLsb'_ten (f : Word) : (permF f).extractLsb' 10 6 = f.extractLsb' 26 6 :=
  permF_hasBitMap.extractLsb'_eq f (by decide) srcF_ten_add

theorem xork_permF_extractLsb'_ten (f : Word) :
    (xork (permF f)).extractLsb' 10 6 = f.extractLsb' 26 6 ^^^ 0b110000#6 := by
  rw [extractLsb'_xork, permF_extractLsb'_ten]
  congr 1

theorem xork_permF_getLsbD_ten_add (f : Word) {k : Nat} (hk : k < 6) :
    (xork (permF f)).getLsbD (10 + k) = (f.getLsbD (26 + k) ^^ key.getLsbD (10 + k)) := by
  rw [xork_getLsbD, permF_hasBitMap f _ (by omega), srcF_ten_add k hk]

/-! ## The named bits -/

/-- The full-flags mask takes the remainder by `2 ^ 26`. -/
theorem toNat_and_flagMask (w : Word) : (w &&& flagMask).toNat = w.toNat % 2 ^ 26 := by
  rw [BitVec.toNat_and]
  exact Nat.and_two_pow_sub_one_eq_mod w.toNat 26

/-- A word of named flags alone loses nothing. -/
theorem and_flagMask_eq_self {w : Word} (h : w ≤ flagMask) : w &&& flagMask = w := by
  have hlt : w.toNat < 2 ^ 26 := Nat.lt_succ_of_le (BitVec.le_def.mp h)
  apply BitVec.eq_of_toNat_eq
  rw [toNat_and_flagMask, Nat.mod_eq_of_lt hlt]

/-- Words with the same bits 0 to 25 are the same once masked. -/
theorem and_flagMask_eq_of_extractLsb'_eq {v w : Word} (h : v.extractLsb' 0 26 = w.extractLsb' 0 26) :
    v &&& flagMask = w &&& flagMask := by
  apply BitVec.eq_of_toNat_eq
  rw [toNat_and_flagMask, toNat_and_flagMask]
  simpa using congrArg BitVec.toNat h

theorem extractLsb'_and_flagMask (w : Word) : (w &&& flagMask).extractLsb' 26 6 = 0#6 := by
  have hmask : flagMask.extractLsb' 26 6 = 0#6 := by decide
  rw [BitVec.extractLsb'_and, hmask, BitVec.and_zero]

/-! ## The outputs of the encode family -/

theorem enctAnswer_eq_encAnswer (x : Word) : enctAnswer x = encAnswer (x &&& flagMask) := rfl

/-- A raw decode gives back the operand that was encoded. -/
theorem decAnswer_encAnswer_dout (f : Word) : (decAnswer (encAnswer f).dout).dout = f :=
  calc permI (xork (xork (permF f))) = permI (permF f) := by rw [xork_xork]
    _ = f := permI_permF f

/-- A password is clean when the word it encodes has no bit from 26 up. -/
theorem cleanPassword_encAnswer_dout {f : Word} (h : f.extractLsb' 26 6 = 0#6) : cleanPassword (encAnswer f).dout = true := by
  rw [cleanPassword, decAnswer_encAnswer_dout, h]
  rfl

end Sys2Proof.Machine

namespace Sys2Proof.Proofs

open Sys2Proof.Machine

/-- Settles O21: the step list is `PERM_F`, then `XORK`, which put the don't-care bits at 10 to 15; the corner operands are
computed. -/
theorem encRunsItsSteps : Obligations.EncRunsItsSteps := by
  intro din s
  refine ⟨rfl, rfl, xork_permF_extractLsb'_ten din, ?_, ?_, ?_⟩ <;> rintro rfl <;> decide

/-- Settles O25: both outputs are `PERM_F` of the operand, `dout` under the key. -/
theorem encCarriesTheDontCareBits : Obligations.EncCarriesTheDontCareBits :=
  ⟨fun din s => ⟨s.transact (.enc din) (encAnswer din), rfl, permF_extractLsb'_ten din, xork_permF_extractLsb'_ten din,
    fun _ hk => xork_permF_getLsbD_ten_add din hk⟩, by decide⟩

/-- Settles O23: `ENCT` is `ENC` of the masked operand, whose don't-care bits are 0. -/
theorem enctTruncatesItsOperand : Obligations.EnctTruncatesItsOperand := by
  intro din s
  have hzero := extractLsb'_and_flagMask din
  refine ⟨rfl, s.transact (.enct din) (enctAnswer din), rfl, rfl, rfl, ?small, ?permuted, ?dout, ?clean, ?same, ?worked⟩
  case small =>
    intro h
    rw [State.transact_answer, enctAnswer_eq_encAnswer, and_flagMask_eq_self h]
  case permuted => exact (permF_extractLsb'_ten (din &&& flagMask)).trans hzero
  case dout => exact (xork_permF_extractLsb'_ten (din &&& flagMask)).trans (by rw [hzero]; rfl)
  case clean => exact cleanPassword_encAnswer_dout hzero
  case same =>
    intro x h
    rw [State.transact_answer, enctAnswer_eq_encAnswer, enctAnswer_eq_encAnswer, and_flagMask_eq_of_extractLsb'_eq h]
  case worked =>
    rintro rfl
    rw [State.transact_permuted, State.transact_dout]
    decide

end Sys2Proof.Proofs
end

section
/-! PROOFS. The decode family (43_decode.md): where the top bits of the result come from, which bits of the password the
26 named bits of the result come from, and the two operations assembled from these. -/

namespace Sys2Proof.Machine

/-! ## The don't-care bits -/

/-- Bits 26 to 31 of `PERM_I` come from bits 10 to 15, in order (43_decode.md R85). -/
theorem dstF_twentySix_add : ∀ k < 6, dstF (26 + k) = 10 + k := by decide

theorem permI_extractLsb'_twentySix (p : Word) : (permI p).extractLsb' 26 6 = p.extractLsb' 10 6 :=
  permI_hasBitMap.extractLsb'_eq p (by decide) dstF_twentySix_add

/-- `DEC` delivers bits 10 to 15 of the password under the key's (43_decode.md R85). -/
theorem permI_xork_extractLsb'_twentySix (p : Word) :
    (permI (xork p)).extractLsb' 26 6 = p.extractLsb' 10 6 ^^^ 0b110000#6 := by
  rw [permI_extractLsb'_twentySix, extractLsb'_xork]
  congr 1

theorem permI_xork_getLsbD_twentySix_add (p : Word) {k : Nat} (hk : k < 6) :
    (permI (xork p)).getLsbD (26 + k) = (p.getLsbD (10 + k) ^^ key.getLsbD (10 + k)) := by
  rw [permI_hasBitMap _ _ (by omega), dstF_twentySix_add k hk, xork_getLsbD]

/-! ## The named bits -/

/-- A word has no bit from 26 up exactly when it is a word of named flags alone. -/
theorem extractLsb'_twentySix_eq_zero_iff (w : Word) : w.extractLsb' 26 6 = 0#6 ↔ w ≤ flagMask := by
  have hmask : flagMask.toNat = 2 ^ 26 - 1 := by decide
  have hlt := w.isLt
  rw [BitVec.le_def, hmask, ← BitVec.toNat_inj, BitVec.extractLsb'_toNat, BitVec.toNat_zero, Nat.shiftRight_eq_div_pow]
  omega

/-- A function that only moves bits takes an AND to the AND of its parts. -/
theorem movesBitsOnly.map_and {P : Word → Word} (h : movesBitsOnly P) (a b : Word) : P (a &&& b) = P a &&& P b := by
  obtain ⟨hand, -⟩ := h a b
  exact hand

/-- The named bits of `PERM_I` come from all the bits but 10 to 15 (43_decode.md R84). -/
theorem permI_and_flagMask (p : Word) : permI p &&& flagMask = permI (p &&& 0xFFFF03FF#32) := by
  have hmask : permI 0xFFFF03FF#32 = flagMask := by decide
  rw [permI_movesBitsOnly.map_and, hmask]

/-- `XORK` of a word within a mask: the word's bits there under the key's. -/
theorem xork_and (v m : Word) : xork v &&& m = (v &&& m) ^^^ (key &&& m) := by
  apply BitVec.eq_of_getLsbD_eq
  intro j _
  simp only [xork_getLsbD, BitVec.getLsbD_and, BitVec.getLsbD_xor, Bool.and_xor_distrib_right]

/-! ## The outputs of the decode family -/

theorem dectAnswer_dout (p : Word) : (dectAnswer p).dout = (decAnswer p).dout &&& flagMask := rfl

theorem dectAnswer_permuted (p : Word) : (dectAnswer p).permuted = xork p := rfl

/-- A password is clean when its raw decode is a word of named flags alone (44_laws.md R95). -/
theorem cleanPassword_iff (p : Word) : cleanPassword p = true ↔ (decAnswer p).dout ≤ flagMask := by
  rw [cleanPassword, beq_iff_eq, extractLsb'_twentySix_eq_zero_iff]

/-- A clean password loses nothing to the mask (43_decode.md R84). -/
theorem dectAnswer_eq_decAnswer {p : Word} (h : cleanPassword p = true) : dectAnswer p = decAnswer p :=
  congrArg (Answer.mk · (xork p)) (and_flagMask_eq_self ((cleanPassword_iff p).mp h))

/-- Passwords that differ in bits 10 to 15 only give one `dout` (43_decode.md R84). -/
theorem dectAnswer_dout_eq_of_and_eq {x y : Word} (h : x &&& 0xFFFF03FF#32 = y &&& 0xFFFF03FF#32) :
    (dectAnswer x).dout = (dectAnswer y).dout :=
  calc permI (xork x) &&& flagMask = permI (xork x &&& 0xFFFF03FF#32) := permI_and_flagMask _
    _ = permI (xork y &&& 0xFFFF03FF#32) := by rw [xork_and, xork_and, h]
    _ = permI (xork y) &&& flagMask := (permI_and_flagMask _).symm

/-- Different passwords give different `permuted`, which is not masked (43_decode.md R84). -/
theorem dectAnswer_permuted_ne {x y : Word} (h : x ≠ y) : (dectAnswer x).permuted ≠ (dectAnswer y).permuted :=
  xork_bijective.injective.ne h

end Sys2Proof.Machine

namespace Sys2Proof.Proofs

open Sys2Proof.Machine

/-- Settles O22: the step list is `XORK`, then `PERM_I`, which brings bits 10 to 15 to the top; the corner operands are
computed. -/
theorem decRunsItsSteps : Obligations.DecRunsItsSteps := by
  intro din s
  refine ⟨rfl, rfl, permI_xork_extractLsb'_twentySix din, ?_, ?_, ?_⟩ <;> rintro rfl <;> decide

/-- Settles O26: `dout` is `PERM_I` of the password under the key, with no mask after it. -/
theorem decDeliversTheDontCareBits : Obligations.DecDeliversTheDontCareBits := fun din s =>
  ⟨s.transact (.dec din) (decAnswer din), rfl, permI_xork_extractLsb'_twentySix din,
    fun _ hk => permI_xork_getLsbD_twentySix_add din hk⟩

/-- Settles O24: `DECT` masks `DEC`'s `dout`, whose named bits do not come from bits 10 to 15 of the password, and leaves
`permuted` injective. -/
theorem dectTruncatesItsResult : Obligations.DectTruncatesItsResult := by
  intro din s
  refine ⟨rfl, s.transact (.dect din) (dectAnswer din), rfl, rfl, rfl, rfl, ?truncated, ?clean, ?same, ?worked⟩
  case truncated => exact extractLsb'_and_flagMask (decAnswer din).dout
  case clean => exact dectAnswer_eq_decAnswer
  case same => exact fun x h => ⟨dectAnswer_dout_eq_of_and_eq h, dectAnswer_permuted_ne⟩
  case worked =>
    rintro rfl
    rw [State.transact_permuted, State.transact_dout]
    decide

end Sys2Proof.Proofs
end

section
/-! PROOFS. The laws between the operations (44_laws.md): encode and decode undo each other, how a change of the operand
changes the answer, what the truncating operations lose, the clean passwords, and the powers of `ENC`. -/

namespace Sys2Proof.Machine

/-! ## Encode and decode undo each other -/

/-- An encode of a raw decode gives back the password (44_laws.md R88). -/
theorem encAnswer_decAnswer_dout (p : Word) : (encAnswer (decAnswer p).dout).dout = p :=
  calc xork (permF (permI (xork p))) = xork (xork p) := by rw [permF_permI]
    _ = p := xork_xork p

/-- `DEC` of an encoded word meets the word that `ENC` had between the stages (44_laws.md R87). -/
theorem decAnswer_encAnswer_permuted (f : Word) : (decAnswer (encAnswer f).dout).permuted = (encAnswer f).permuted :=
  xork_xork (permF f)

/-- The word between the stages of `DEC` is `PERM_F` of its result (44_laws.md R90). -/
theorem permF_decAnswer_dout (p : Word) : permF (decAnswer p).dout = (decAnswer p).permuted :=
  permF_permI (xork p)

theorem leftInverse_decAnswer_encAnswer :
    Function.LeftInverse (fun p => (decAnswer p).dout) (fun f => (encAnswer f).dout) :=
  decAnswer_encAnswer_dout

theorem rightInverse_decAnswer_encAnswer :
    Function.RightInverse (fun p => (decAnswer p).dout) (fun f => (encAnswer f).dout) :=
  encAnswer_decAnswer_dout

theorem encAnswer_dout_bijective : Function.Bijective fun f => (encAnswer f).dout :=
  ⟨leftInverse_decAnswer_encAnswer.injective, rightInverse_decAnswer_encAnswer.surjective⟩

theorem decAnswer_dout_bijective : Function.Bijective fun p => (decAnswer p).dout :=
  ⟨rightInverse_decAnswer_encAnswer.injective, leftInverse_decAnswer_encAnswer.surjective⟩

/-- The one word that encodes to a password is its raw decode. -/
theorem encAnswer_dout_eq_iff {f p : Word} : (encAnswer f).dout = p ↔ f = (decAnswer p).dout := by
  constructor
  · rintro rfl
    exact (decAnswer_encAnswer_dout f).symm
  · rintro rfl
    exact encAnswer_decAnswer_dout p

/-- `ENCT` loses bit 31 of its operand (42_encode.md R80). -/
theorem enctAnswer_dout_not_injective : ¬ Function.Injective fun f => (enctAnswer f).dout := by
  intro h
  have hsame : (enctAnswer 0x80000000#32).dout = (enctAnswer 0#32).dout := by decide
  exact absurd (h hsame) (by decide)

/-- `DECT` loses bit 15 of its operand (43_decode.md R84). -/
theorem dectAnswer_dout_not_injective : ¬ Function.Injective fun p => (dectAnswer p).dout := by
  intro h
  have hsame : (dectAnswer 0x00008000#32).dout = (dectAnswer 0#32).dout := dectAnswer_dout_eq_of_and_eq (by decide)
  exact absurd (h hsame) (by decide)

/-! ## A change of the operand -/

theorem xork_xor (v c : Word) : xork (v ^^^ c) = xork v ^^^ c := by
  rw [xork, xork, BitVec.xor_assoc, BitVec.xor_comm c key, BitVec.xor_assoc]

/-- A change `c` of the operand of `ENC` changes the answer by `PERM_F` of `c`, whatever the key (44_laws.md R97). -/
theorem encAnswer_xor_dout (f c : Word) : (encAnswer (f ^^^ c)).dout = (encAnswer f).dout ^^^ permF c :=
  calc xork (permF (f ^^^ c)) = xork (permF f ^^^ permF c) := by rw [permF_movesBitsOnly.map_xor]
    _ = xork (permF f) ^^^ permF c := xork_xor _ _

/-- A change `c` of the operand of `DEC` changes the answer by `PERM_I` of `c`, whatever the key (44_laws.md R97). -/
theorem decAnswer_xor_dout (p c : Word) : (decAnswer (p ^^^ c)).dout = (decAnswer p).dout ^^^ permI c :=
  calc permI (xork (p ^^^ c)) = permI (xork p ^^^ c) := by rw [xork_xor]
    _ = permI (xork p) ^^^ permI c := permI_movesBitsOnly.map_xor _ _

/-- Where a change of the operand changes the answer by `P` of it, differences of answers are `P` of differences. -/
theorem xor_eq_of_map_xor {A P : Word → Word} (h : ∀ x c, A (x ^^^ c) = A x ^^^ P c) (a b : Word) :
    A a ^^^ A b = P (a ^^^ b) :=
  calc A a ^^^ A b = A a ^^^ A (a ^^^ (a ^^^ b)) := by rw [← BitVec.xor_assoc, BitVec.xor_self, BitVec.zero_xor]
    _ = A a ^^^ (A a ^^^ P (a ^^^ b)) := by rw [h]
    _ = P (a ^^^ b) := by rw [← BitVec.xor_assoc, BitVec.xor_self, BitVec.zero_xor]

/-- Where a change of the operand changes the answer by `P` of it, the answer is `P` of the operand under the answer at 0. -/
theorem eq_xor_zero_of_map_xor {A P : Word → Word} (h : ∀ x c, A (x ^^^ c) = A x ^^^ P c) (a : Word) :
    A a = P a ^^^ A 0#32 :=
  calc A a = A (0#32 ^^^ a) := by rw [BitVec.zero_xor]
    _ = A 0#32 ^^^ P a := h _ _
    _ = P a ^^^ A 0#32 := BitVec.xor_comm _ _

theorem movesBitsOnly.onesCount_eq {P : Word → Word} (h : movesBitsOnly P) (a : Word) : onesCount (P a) = onesCount a := by
  obtain ⟨-, -, -, -, hcount⟩ := h a a
  exact hcount

/-- A bit map carries the word of one bit to the word of the bit that comes from it. -/
theorem HasBitMap.shiftLeft_one {P : Word → Word} {src : Nat → Nat} (hP : HasBitMap P src) {i k : Nat} (hi : i < 32)
    (hk : k < 32) (h : ∀ j < 32, i = src j ↔ k = j) : P (1#32 <<< i) = 1#32 <<< k := by
  apply BitVec.eq_of_getLsbD_eq
  intro j hj
  rw [hP _ j hj, ← BitVec.twoPow_eq, ← BitVec.twoPow_eq, BitVec.getLsbD_twoPow, BitVec.getLsbD_twoPow, decide_eq_true hi,
    decide_eq_true hk, decide_eq_decide.mpr (h j hj)]

/-- `PERM_F` moves bit `i` to bit `dst_F(i)` (40_byte_permutation.md R64). -/
theorem permF_shiftLeft_one {i : Nat} (hi : i < 32) : permF (1#32 <<< i) = 1#32 <<< dstF i :=
  permF_hasBitMap.shiftLeft_one hi (dstF_lt hi) fun _ hj =>
    ⟨fun h => by rw [h, dstF_srcF hj], fun h => by rw [← h, srcF_dstF hi]⟩

/-- `PERM_I` moves bit `i` to bit `src_F(i)` (40_byte_permutation.md R67). -/
theorem permI_shiftLeft_one {i : Nat} (hi : i < 32) : permI (1#32 <<< i) = 1#32 <<< srcF i :=
  permI_hasBitMap.shiftLeft_one hi (srcF_lt hi) fun _ hj =>
    ⟨fun h => by rw [h, srcF_dstF hj], fun h => by rw [← h, dstF_srcF hi]⟩

/-! ## The named bits -/

/-- The mask leaves exactly the words of named flags alone as they are. -/
theorem and_flagMask_eq_self_iff {w : Word} : w &&& flagMask = w ↔ w ≤ flagMask := by
  constructor
  · intro h
    rw [← extractLsb'_twentySix_eq_zero_iff, ← h, extractLsb'_and_flagMask]
  · exact and_flagMask_eq_self

theorem decAnswer_enctAnswer_dout (f : Word) : (decAnswer (enctAnswer f).dout).dout = f &&& flagMask := by
  rw [enctAnswer_eq_encAnswer, decAnswer_encAnswer_dout]

theorem dectAnswer_encAnswer_dout (f : Word) : (dectAnswer (encAnswer f).dout).dout = f &&& flagMask := by
  rw [dectAnswer_dout, decAnswer_encAnswer_dout]

theorem dectAnswer_enctAnswer_dout (f : Word) : (dectAnswer (enctAnswer f).dout).dout = f &&& flagMask := by
  rw [dectAnswer_dout, decAnswer_enctAnswer_dout, BitVec.and_assoc, BitVec.and_self]

/-- A 26-bit word is read back from the 32-bit word it makes. -/
theorem setWidth_setWidth_named (f : BitVec 26) : (f.setWidth 32).setWidth 26 = f := by
  rw [BitVec.setWidth_setWidth_of_le _ (by decide), BitVec.setWidth_eq]

/-- The words of named flags alone are the 26-bit words, each once. -/
theorem le_flagMask_iff_existsUnique_setWidth (w : Word) : w ≤ flagMask ↔ ∃! f : BitVec 26, f.setWidth 32 = w := by
  have hmask : flagMask.toNat = 2 ^ 26 - 1 := by decide
  constructor
  · intro h
    have hw : (w.setWidth 26).setWidth 32 = w := by
      have hlt := BitVec.le_def.mp h
      apply BitVec.eq_of_toNat_eq
      rw [BitVec.toNat_setWidth, BitVec.toNat_setWidth]
      omega
    refine ⟨w.setWidth 26, hw, ?_⟩
    rintro f rfl
    exact (setWidth_setWidth_named f).symm
  · rintro ⟨f, rfl, -⟩
    have hlt := f.isLt
    rw [BitVec.le_def, BitVec.toNat_setWidth]
    omega

/-! ## Clean passwords -/

/-- A password is clean when some word of named flags alone encodes to it (44_laws.md R95). -/
theorem cleanPassword_iff_exists_encAnswer (p : Word) :
    cleanPassword p = true ↔ ∃ f : Word, f ≤ flagMask ∧ (encAnswer f).dout = p := by
  rw [cleanPassword_iff]
  constructor
  · intro h
    exact ⟨_, h, encAnswer_decAnswer_dout p⟩
  · rintro ⟨f, hf, rfl⟩
    rwa [decAnswer_encAnswer_dout]

/-- A password is clean when exactly one 26-bit word encodes to it (44_laws.md R95). -/
theorem cleanPassword_iff_existsUnique_encAnswer (p : Word) :
    cleanPassword p = true ↔ ∃! f : BitVec 26, (encAnswer (f.setWidth 32)).dout = p := by
  simp only [cleanPassword_iff, encAnswer_dout_eq_iff, le_flagMask_iff_existsUnique_setWidth]

/-- A password is clean when its bits 15 to 10 are the key's (44_laws.md R95). -/
theorem cleanPassword_iff_extractLsb' (p : Word) : cleanPassword p = true ↔ p.extractLsb' 10 6 = 0b110000#6 := by
  have htop : (decAnswer p).dout.extractLsb' 26 6 = p.extractLsb' 10 6 ^^^ 0b110000#6 :=
    permI_xork_extractLsb'_twentySix p
  rw [cleanPassword, beq_iff_eq, htop, BitVec.xor_eq_zero_iff]

/-- Bits 15 to 10 of a word, in place. -/
theorem and_eq_extractLsb'_shiftLeft (p : Word) :
    p &&& 0x0000FC00#32 = (p.extractLsb' 10 6).setWidth 32 <<< 10 := by
  apply BitVec.eq_of_getLsbD_eq
  intro j hj
  interval_cases j <;> simp

theorem extractLsb'_ten_eq_iff_and_eq (p : Word) :
    p.extractLsb' 10 6 = 0b110000#6 ↔ p &&& 0x0000FC00#32 = 0x0000C000#32 := by
  constructor
  · intro h
    rw [and_eq_extractLsb'_shiftLeft, h]
    decide
  · intro h
    have hfield : (p &&& 0x0000FC00#32).extractLsb' 10 6 = p.extractLsb' 10 6 := by
      rw [BitVec.extractLsb'_and]
      exact BitVec.and_allOnes
    rw [← hfield, h]
    decide

/-- A password is clean when `DEC` and `DECT` agree on it (44_laws.md R95). -/
theorem cleanPassword_iff_dectAnswer_dout_eq (p : Word) :
    cleanPassword p = true ↔ (dectAnswer p).dout = (decAnswer p).dout := by
  rw [cleanPassword_iff, dectAnswer_dout, and_flagMask_eq_self_iff]

/-- Different 26-bit words have different passwords. -/
theorem encAnswer_setWidth_injective {f g : BitVec 26}
    (h : (encAnswer (f.setWidth 32)).dout = (encAnswer (g.setWidth 32)).dout) : f = g := by
  have hwide : f.setWidth 32 = g.setWidth 32 := encAnswer_dout_bijective.injective h
  rw [← setWidth_setWidth_named f, hwide, setWidth_setWidth_named]

/-- Re-encoding what `DECT` kept: the password outside bits 15 to 10, and the key's bits there (44_laws.md R96). -/
theorem encAnswer_dectAnswer_dout (p : Word) :
    (encAnswer (dectAnswer p).dout).dout = (p &&& 0xFFFF03FF#32) ||| 0x0000C000#32 :=
  have hkey : key &&& 0xFFFF03FF#32 ^^^ key = 0x0000C000#32 := by decide
  have hmask : 0xFFFF03FF#32 &&& 0x0000C000#32 = 0#32 := by decide
  calc xork (permF (permI (xork p) &&& flagMask))
      = xork (xork p &&& 0xFFFF03FF#32) := by rw [permI_and_flagMask, permF_permI]
    _ = (p &&& 0xFFFF03FF#32) ^^^ 0x0000C000#32 := by rw [xork_and, xork, BitVec.xor_assoc, hkey]
    _ = (p &&& 0xFFFF03FF#32) ||| 0x0000C000#32 :=
        xor_eq_or_of_and_eq_zero (by rw [BitVec.and_assoc, hmask, BitVec.and_zero])

/-! ## Powers of `ENC` -/

/-- `PERM_F` applied twice reverses the bytes (40_byte_permutation.md R69). -/
theorem permF_permF (x : Word) : permF (permF x) = byteReverse x := by
  obtain ⟨b3, b2, b1, b0, rfl⟩ := exists_eq_ofBytes x
  rw [permF_ofBytes, permF_ofBytes, byteReverse, byteAt_zero_ofBytes, byteAt_one_ofBytes, byteAt_two_ofBytes,
    byteAt_three_ofBytes]

theorem byteReverse_ofBytes (b3 b2 b1 b0 : Byte) : byteReverse (ofBytes b3 b2 b1 b0) = ofBytes b0 b1 b2 b3 := by
  rw [← permF_permF, permF_ofBytes, permF_ofBytes]

/-- `ENC` applied twice reverses the bytes under the two key terms gathered (44_laws.md R98). -/
theorem encAnswer_encAnswer_dout (x : Word) :
    (encAnswer (encAnswer x).dout).dout = byteReverse x ^^^ 0x11666611#32 :=
  have hkey : permF key ^^^ key = 0x11666611#32 := by decide
  calc xork (permF (xork (permF x))) = permF (permF x) ^^^ permF key ^^^ key := by rw [permF_xork, xork]
    _ = byteReverse x ^^^ 0x11666611#32 := by rw [permF_permF, BitVec.xor_assoc, hkey]

/-- `ENC` applied three times is `DEC`, because the key's bytes XOR to 0: the three key terms gathered are the fourth, which
is `DEC`'s (44_laws.md R98). -/
theorem encAnswer_encAnswer_encAnswer_dout (x : Word) :
    (encAnswer (encAnswer (encAnswer x).dout).dout).dout = (decAnswer x).dout :=
  have hkey : permF 0x11666611#32 ^^^ key = permI key := by decide
  calc xork (permF (encAnswer (encAnswer x).dout).dout)
      = xork (permF (byteReverse x ^^^ 0x11666611#32)) := by rw [encAnswer_encAnswer_dout]
    _ = permF (permF (permF x)) ^^^ permF 0x11666611#32 ^^^ key := by
        rw [permF_movesBitsOnly.map_xor, ← permF_permF, xork]
    _ = permI x ^^^ permI key := by rw [permF_permF_permF, BitVec.xor_assoc, hkey]
    _ = permI (xork x) := (permI_movesBitsOnly.map_xor x key).symm

end Sys2Proof.Machine

namespace Sys2Proof.Proofs

open Sys2Proof.Machine

/-- Settles O28: `PERM_F` of a raw decode, masked or not afterwards, is the word between the stages; the single bytes are
computed. -/
theorem permutedIsTheWordBetweenTheStages : Obligations.PermutedIsTheWordBetweenTheStages := by
  refine ⟨fun x s => ?_, by decide, by decide, by decide, by decide⟩
  have hdec := (permF_decAnswer_dout x).symm
  have hpassword := xork_xork x
  exact ⟨s.transact (.enc x) (encAnswer x), s.transact (.dec x) (decAnswer x), s.transact (.enct x) (enctAnswer x),
    s.transact (.dect x) (dectAnswer x), rfl, rfl, rfl, rfl, rfl, rfl, hdec, hdec, rfl, rfl, hpassword, hpassword⟩

/-- Settles O29: the key undoes itself, then `PERM_I` undoes `PERM_F`. -/
theorem decAfterEncReturnsTheFlags : Obligations.DecAfterEncReturnsTheFlags := fun f s =>
  ⟨s.transact (.enc f) (encAnswer f), _, rfl, rfl, decAnswer_encAnswer_dout f, decAnswer_encAnswer_permuted f⟩

/-- Settles O30: `PERM_F` undoes `PERM_I`, then the key undoes itself. -/
theorem encAfterDecReturnsThePassword : Obligations.EncAfterDecReturnsThePassword := fun p s =>
  ⟨s.transact (.dec p) (decAnswer p), _, rfl, rfl, encAnswer_decAnswer_dout p, permF_decAnswer_dout p⟩

/-- Settles O31: inverse functions are bijections, and each truncating operation loses a bit. -/
theorem encAndDecAreBijections : Obligations.EncAndDecAreBijections :=
  ⟨encAnswer_dout_bijective, decAnswer_dout_bijective, leftInverse_decAnswer_encAnswer, rightInverse_decAnswer_encAnswer,
    fun h => enctAnswer_dout_not_injective h.injective, fun h => dectAnswer_dout_not_injective h.injective⟩

/-- Settles O32: the bit map of `PERM_F` under the key, and `PERM_F` of a change of one bit. -/
theorem encodeBitsAreIndependent : Obligations.EncodeBitsAreIndependent := by
  intro f j hj
  constructor
  · calc (xork (permF f)).getLsbD j = ((permF f).getLsbD j ^^ key.getLsbD j) := xork_getLsbD _ _
      _ = (f.getLsbD (srcF j) ^^ key.getLsbD j) := by rw [permF_hasBitMap f j hj]
  · rw [encAnswer_xor_dout, permF_shiftLeft_one hj]

/-- Settles O33: the bit map of `PERM_I` after the key, and `PERM_I` of a change of one bit. -/
theorem decodeBitsAreIndependent : Obligations.DecodeBitsAreIndependent := by
  intro p i hi
  constructor
  · calc (permI (xork p)).getLsbD i = (xork p).getLsbD (dstF i) := permI_hasBitMap _ i hi
      _ = (p.getLsbD (dstF i) ^^ key.getLsbD (dstF i)) := xork_getLsbD _ _
  · rw [decAnswer_xor_dout, permI_shiftLeft_one hi]

/-- Settles O34: a truncation on either side masks the operand, and the mask returns the words of named flags alone. -/
theorem truncatingRoundTrips : Obligations.TruncatingRoundTrips := by
  intro f p
  refine ⟨rfl, rfl, dectAnswer_encAnswer_dout f, decAnswer_enctAnswer_dout f, dectAnswer_enctAnswer_dout f,
    decAnswer_encAnswer_dout f, ?_, ?_, ?_⟩
  · rw [dectAnswer_encAnswer_dout]
    exact and_flagMask_eq_self_iff
  · rw [decAnswer_enctAnswer_dout]
    exact and_flagMask_eq_self_iff
  · rw [dectAnswer_enctAnswer_dout]
    exact and_flagMask_eq_self_iff

/-- Settles O35: each characterisation says that the raw decode is a word of named flags alone; the vectors are computed. -/
theorem cleanPasswordsAreTheEncodedFlags : Obligations.CleanPasswordsAreTheEncodedFlags :=
  ⟨fun p => ⟨cleanPassword_iff_exists_encAnswer p, cleanPassword_iff_existsUnique_encAnswer p,
      cleanPassword_iff_extractLsb' p, (cleanPassword_iff_extractLsb' p).trans (extractLsb'_ten_eq_iff_and_eq p),
      (cleanPassword_iff_dectAnswer_dout_eq p).trans eq_comm⟩,
    fun _ _ => encAnswer_setWidth_injective, by decide, by decide, by decide, by decide, by decide, by decide⟩

/-- Settles O36: the encode gives the password back exactly when `DECT` gave its raw decode. -/
theorem reencodingATruncatedDecode : Obligations.ReencodingATruncatedDecode := fun p =>
  ⟨encAnswer_dectAnswer_dout p, encAnswer_dout_eq_iff.trans (cleanPassword_iff_dectAnswer_dout_eq p).symm⟩

/-- Settles O37: a change of the operand passes through the permutation alone, which keeps the number of 1 bits. -/
theorem differencesCancelTheKey : Obligations.DifferencesCancelTheKey := by
  intro a b
  have hdiff : (encAnswer a).dout ^^^ (encAnswer b).dout = permF (a ^^^ b) :=
    xor_eq_of_map_xor (A := fun x => (encAnswer x).dout) encAnswer_xor_dout a b
  refine ⟨hdiff, xor_eq_of_map_xor (A := fun x => (decAnswer x).dout) decAnswer_xor_dout a b,
    eq_xor_zero_of_map_xor (A := fun x => (encAnswer x).dout) encAnswer_xor_dout a,
    eq_xor_zero_of_map_xor (A := fun x => (decAnswer x).dout) decAnswer_xor_dout a, by decide, by decide, ?_⟩
  rw [hdiff, permF_movesBitsOnly.onesCount_eq]

/-- Settles O38: three `ENC` are one `DEC`, so four are `DEC` after `ENC`; 0 is moved by two `ENC`, and not to `ENC` of 0. -/
theorem powersOfEnc : Obligations.PowersOfEnc := by
  refine ⟨fun x s => ?_, byteReverse_ofBytes, by decide, ⟨0#32, by decide⟩, ⟨0#32, by decide⟩⟩
  have hfour : (encAnswer (encAnswer (encAnswer (encAnswer x).dout).dout).dout).dout = x := by
    rw [encAnswer_encAnswer_encAnswer_dout, decAnswer_encAnswer_dout]
  exact ⟨s.transact (.enc x) (encAnswer x), _, _, _, s.transact (.dec x) (decAnswer x), rfl, rfl, rfl, rfl, rfl,
    encAnswer_encAnswer_dout x, encAnswer_encAnswer_encAnswer_dout x, hfour⟩

end Sys2Proof.Proofs
end

section
/-! PROOFS. No exceptions (60_exceptions.md): the block has no outcome but a next state, neither for an instruction nor for a
sample of the ports. -/

namespace Sys2Proof.Machine

/-- An instruction answers the state after its transaction. -/
theorem exec_completes (i : Instr) (s : State) : completes (exec i s) := ⟨_, exec_eq_transact i s⟩

/-- The samples of `step` leave no case out, and each answers a next state: within `T_PD` (R119), settled with every input
bit driven (R25), settled with one undriven (R120). -/
theorem step_completes (s : State) : completes (step s) := by
  cases hr : s.phase.remaining with
  | succ n => exact ⟨_, step_unsettled hr⟩
  | zero =>
    cases hd : s.pins.allDriven with
    | true =>
      rw [step_driven hr hd]
      exact exec_completes (fetch s.pins) s
    | false => exact ⟨_, step_undriven hr hd⟩

end Sys2Proof.Machine

namespace Sys2Proof.Proofs

open Sys2Proof.Machine

/-- Settles O27: an instruction is its whole transaction, and a step is one of three samples, each a next state. -/
theorem nothingFaultsOrRefuses : Obligations.NothingFaultsOrRefuses := ⟨exec_completes, step_completes⟩

end Sys2Proof.Proofs
end

section
/-! PROOFS. Reset and hazards (70_reset_and_hazards.md): the logical shifts of the encode, held inputs that settle, and the
output bits that an undriven input bit makes free. -/

namespace Sys2Proof.Machine

/-! ## The logical shift -/

/-- A word within a mask is at most the mask. -/
theorem WithinMask.le {m w : Word} (h : WithinMask m w) : w ≤ m := by
  rw [← withinMask_iff_and_eq.mp h, BitVec.le_def, BitVec.toNat_and]
  exact Nat.and_le_right

theorem ofBytes_or (b3 b2 b1 b0 c3 c2 c1 c0 : Byte) :
    ofBytes b3 b2 b1 b0 ||| ofBytes c3 c2 c1 c0 = ofBytes (b3 ||| c3) (b2 ||| c2) (b1 ||| c1) (b0 ||| c0) := by
  unfold ofBytes
  rw [← BitVec.or_append, ← BitVec.or_append, ← BitVec.or_append]

theorem ofBytes_and (b3 b2 b1 b0 c3 c2 c1 c0 : Byte) :
    ofBytes b3 b2 b1 b0 &&& ofBytes c3 c2 c1 c0 = ofBytes (b3 &&& c3) (b2 &&& c2) (b1 &&& c1) (b0 &&& c0) := by
  unfold ofBytes
  rw [← BitVec.and_append, ← BitVec.and_append, ← BitVec.and_append]

/-- The first term of the encode under an arithmetic shift: the copies of bit 31 fill byte positions 2 and 3
(70_reset_and_hazards.md R116). -/
theorem sshiftRight_shiftLeft_eq_ofBytes {f : Word} (h : f.getLsbD 31 = true) :
    (BitVec.sshiftRight f 24) <<< 8 = ofBytes 0xFF#8 0xFF#8 (byteAt 3 f) 0#8 := by
  have hmsb : f.msb = true := h
  have hones : ∀ k < 8, (0xFF#8).getLsbD k = true := by decide
  apply BitVec.eq_of_getLsbD_eq
  intro j hj
  rw [BitVec.getLsbD_shiftLeft, BitVec.getLsbD_sshiftRight, ofBytes_getLsbD, byteAt_getLsbD, hmsb]
  by_cases h0 : j < 8
  · simp [h0]
  have hin : j - 8 < 32 := by omega
  by_cases h1 : j < 16
  · simp [hj, h0, h1, hin, show 24 + (j - 8) < 32 by omega, show j - 8 < 8 by omega]
  have hcopy : ¬ 24 + (j - 8) < 32 := by omega
  by_cases h2 : j < 24
  · simp [hj, h0, h1, h2, hin, hcopy, hones (j - 16) (by omega)]
  · simp [hj, h0, h1, h2, hin, hcopy, hones (j - 24) (by omega)]

/-- That term leaves the permuted word as it is only where the two bytes it fills are all ones already. -/
theorem permF_eq_or_iff (f : Word) :
    permF f = permF f ||| ofBytes 0xFF#8 0xFF#8 (byteAt 3 f) 0#8 ↔ byteAt 0 f = 0xFF#8 ∧ byteAt 2 f = 0xFF#8 := by
  obtain ⟨b3, b2, b1, b0, rfl⟩ := exists_eq_ofBytes f
  have hfull (b : Byte) : b ||| 0xFF#8 = 0xFF#8 := BitVec.or_allOnes
  rw [permF_ofBytes, byteAt_three_ofBytes, byteAt_two_ofBytes, byteAt_zero_ofBytes, ofBytes_or, ofBytes_inj, hfull, hfull,
    BitVec.or_self, BitVec.or_zero]
  tauto

/-! ## Held inputs settle -/

/-- A step on a driven transaction held longer than `T_PD` completes it. -/
theorem step_held {i : Instr} {s : State} (hr : s.phase.remaining = 0) (hp : s.pins = Pins.ofInstr i) :
    step s = .next (s.transact i (eval i.op i.din)) := by
  have hd : s.pins.allDriven = true := hp ▸ Pins.ofInstr_allDriven i
  rw [step_driven hr hd, exec_eq_transact, fetch_op, fetch_din, State.transact, Pins.ofInstr_fetch hd, hp]
  rfl

/-- A transaction on the ports completes with the first sample after those within `T_PD`: each sample within it leaves the
inputs as they are and one such sample less (70_reset_and_hazards.md R119). -/
theorem core_run_held {i : Instr} {s : State} (hp : s.pins = Pins.ofInstr i) :
    ∃ u : State, Sys2Proof.core.run (s.phase.remaining + 1) s = .next (u.transact i (eval i.op i.din)) := by
  induction hr : s.phase.remaining generalizing s with
  | zero => exact ⟨s, core_run_succ 0 (step_held hr hp)⟩
  | succ n ih =>
    rw [core_run_succ (n + 1) (step_unsettled hr)]
    exact ih (s := s.sampleUnsettled n) hp (Phase.remaining_settling n)

/-- Changing `op` and then `din` leaves the new pair on the ports. -/
theorem State.presentDin_presentOp_pins (s : State) (i : Instr) :
    ((s.presentOp i.op).presentDin i.din).pins = Pins.ofInstr i := by
  rw [State.presentDin, State.presentOp, State.present_pins, State.present_pins]
  rfl

/-- Changing `din` and then `op` leaves the new pair on the ports. -/
theorem State.presentOp_presentDin_pins (s : State) (i : Instr) :
    ((s.presentDin i.din).presentOp i.op).pins = Pins.ofInstr i := by
  rw [State.presentOp, State.presentDin, State.present_pins, State.present_pins]
  rfl

/-! ## The bits of the outputs -/

/-- The outputs of the encode family (30_encoding.md R46, R47). -/
theorem eval_encode {op : BitVec 2} (h : op.getLsbD 0 = false) (x : Word) :
    eval op x = ⟨xork (permF (confine (op.getLsbD 1) x)), permF (confine (op.getLsbD 1) x)⟩ := by
  unfold eval
  rw [h]
  cases op.getLsbD 1 <;> rfl

/-- The outputs of the decode family (30_encoding.md R46, R47). -/
theorem eval_decode {op : BitVec 2} (h : op.getLsbD 0 = true) (x : Word) :
    eval op x = ⟨confine (op.getLsbD 1) (permI (xork x)), xork x⟩ := by
  unfold eval
  rw [h]
  cases op.getLsbD 1 <;> rfl

/-- Confining clears the bits from 26 up where `t` is 1. -/
theorem confine_getLsbD_not (t : Bool) (w : Word) (j : Nat) :
    (confine t w).getLsbD j = (w.getLsbD j && !(decide (26 ≤ j) && t)) := by
  rw [confine_getLsbD]
  by_cases h : j < 26
  · simp [h, Nat.not_le.mpr h]
  · simp [h, Nat.not_lt.mp h]

/-- What an output bit carries that comes from bit `i` of `din`: that bit, inverted where `k`, or 0 where it is a don't-care
bit of the FLAGS side and `op[1]` confines the word (30_encoding.md R46). -/
def carriedBit (p : Pins) (i : Nat) (dontCare k : Bool) : Bool :=
  (p.din.getLsbD i ^^ k) && !(dontCare && p.op.getLsbD 1)

theorem eval_dout_getLsbD (p : Pins) {j : Nat} (hj : j < 32) :
    (eval p.op p.din).dout.getLsbD j =
      if p.op.getLsbD 0 then carriedBit p (dstF j) (decide (26 ≤ j)) (key.getLsbD (dstF j))
      else carriedBit p (srcF j) (decide (26 ≤ srcF j)) false ^^ key.getLsbD j := by
  cases h : p.op.getLsbD 0 with
  | false =>
    rw [if_neg Bool.false_ne_true, eval_encode h, xork_getLsbD, permF_hasBitMap _ j hj, confine_getLsbD_not, carriedBit,
      Bool.xor_false]
  | true =>
    rw [eval_decode h, confine_getLsbD_not, permI_hasBitMap _ j hj, xork_getLsbD]
    rfl

theorem eval_permuted_getLsbD (p : Pins) {j : Nat} (hj : j < 32) :
    (eval p.op p.din).permuted.getLsbD j =
      if p.op.getLsbD 0 then carriedBit p j false (key.getLsbD j)
      else carriedBit p (srcF j) (decide (26 ≤ srcF j)) false := by
  cases h : p.op.getLsbD 0 with
  | false =>
    rw [if_neg Bool.false_ne_true, eval_encode h, permF_hasBitMap _ j hj, confine_getLsbD_not, carriedBit, Bool.xor_false]
  | true =>
    rw [eval_decode h, xork_getLsbD, carriedBit, Bool.false_and, Bool.not_false, Bool.and_true]
    rfl

/-! ## The output bits that depend on an undriven input bit -/

/-- Whether an output bit that comes from bit `i` of `din` depends on an undriven bit of `din` or on an undriven `op[1]`
(70_reset_and_hazards.md R120). A don't-care bit that `op[1]` confines to 0 depends on no bit of `din`. -/
def carriesUndriven (p : Pins) (i : Nat) (dontCare : Bool) : Bool :=
  if dontCare then !p.opDriven.getLsbD 1 || (!p.op.getLsbD 1 && !p.dinDriven.getLsbD i) else !p.dinDriven.getLsbD i

/-- `carriesUndriven` of the bit of `din` that output bit `j` of `dout` comes from. -/
def doutCarriesUndriven (p : Pins) (j : Nat) : Bool :=
  if p.op.getLsbD 0 then carriesUndriven p (dstF j) (decide (26 ≤ j))
  else carriesUndriven p (srcF j) (decide (26 ≤ srcF j))

/-- `carriesUndriven` of the bit of `din` that output bit `j` of `permuted` comes from. -/
def permutedCarriesUndriven (p : Pins) (j : Nat) : Bool :=
  if p.op.getLsbD 0 then carriesUndriven p j false else carriesUndriven p (srcF j) (decide (26 ≤ srcF j))

theorem carriesUndriven_false (p : Pins) (i : Nat) : carriesUndriven p i false = !p.dinDriven.getLsbD i := rfl

/-- The six output bits of an encode that come from the don't-care bits of its operand. -/
theorem srcF_dontCare_iff : ∀ j < 32, (26 ≤ srcF j ↔ 10 ≤ j ∧ j < 16) := by decide

theorem encodeMask_getLsbD : ∀ j < 32, (0x0000FC00#32).getLsbD j = decide (26 ≤ srcF j) := by decide

theorem decodeMask_getLsbD : ∀ j < 32, (0xFC000000#32).getLsbD j = decide (26 ≤ j) := by decide

theorem allOnes_getLsbD : ∀ j < 32, (0xFFFFFFFF#32).getLsbD j = true := by decide

theorem undrivenDinReach_encode {p : Pins} (h : p.op.getLsbD 0 = false) :
    undrivenDinReach p =
      ⟨permF (confine (p.op.getLsbD 1) (~~~p.dinDriven)), permF (confine (p.op.getLsbD 1) (~~~p.dinDriven))⟩ := by
  unfold undrivenDinReach
  rw [h]

theorem undrivenDinReach_decode {p : Pins} (h : p.op.getLsbD 0 = true) :
    undrivenDinReach p = ⟨confine (p.op.getLsbD 1) (permI (~~~p.dinDriven)), ~~~p.dinDriven⟩ := by
  unfold undrivenDinReach
  rw [h]

theorem undrivenOpReach_dout_getLsbD (p : Pins) {j : Nat} (hj : j < 32) :
    (undrivenOpReach p).dout.getLsbD j =
      (!p.opDriven.getLsbD 0 || !p.opDriven.getLsbD 1 &&
        if p.op.getLsbD 0 then decide (26 ≤ j) else decide (26 ≤ srcF j)) := by
  unfold undrivenOpReach
  cases p.opDriven.getLsbD 0 with
  | false => exact allOnes_getLsbD j hj
  | true =>
    cases p.opDriven.getLsbD 1 with
    | true => exact BitVec.getLsbD_zero
    | false =>
      cases p.op.getLsbD 0 with
      | false => exact encodeMask_getLsbD j hj
      | true => exact decodeMask_getLsbD j hj

theorem undrivenOpReach_permuted_getLsbD (p : Pins) {j : Nat} (hj : j < 32) :
    (undrivenOpReach p).permuted.getLsbD j =
      (!p.opDriven.getLsbD 0 || !p.opDriven.getLsbD 1 && if p.op.getLsbD 0 then false else decide (26 ≤ srcF j)) := by
  unfold undrivenOpReach
  cases p.opDriven.getLsbD 0 with
  | false => exact allOnes_getLsbD j hj
  | true =>
    cases p.opDriven.getLsbD 1 with
    | true => cases p.op.getLsbD 0 <;> exact BitVec.getLsbD_zero
    | false =>
      cases p.op.getLsbD 0 with
      | false => exact encodeMask_getLsbD j hj
      | true => exact BitVec.getLsbD_zero

/-- An undriven `op[1]` and an undriven bit of `din` together. -/
theorem or_undriven_eq_carriesUndriven (p : Pins) (i : Nat) (c : Bool) :
    (!p.opDriven.getLsbD 1 && c || !p.dinDriven.getLsbD i && !(c && p.op.getLsbD 1)) = carriesUndriven p i c := by
  unfold carriesUndriven
  cases c
  · simp
  · simp [Bool.and_comm]

theorem not_dinDriven_getLsbD (p : Pins) {i : Nat} (hi : i < 32) :
    (~~~p.dinDriven).getLsbD i = !p.dinDriven.getLsbD i := by
  rw [BitVec.getLsbD_not, decide_eq_true hi, Bool.true_and]

theorem undrivenReach_dout_getLsbD (p : Pins) {j : Nat} (hj : j < 32) :
    (undrivenReach p).dout.getLsbD j = (!p.opDriven.getLsbD 0 || doutCarriesUndriven p j) := by
  rw [undrivenReach, BitVec.getLsbD_or, undrivenOpReach_dout_getLsbD p hj, Bool.or_assoc, doutCarriesUndriven]
  congr 1
  cases h : p.op.getLsbD 0 with
  | false =>
    rw [undrivenDinReach_encode h, permF_hasBitMap _ j hj, confine_getLsbD_not, not_dinDriven_getLsbD p (srcF_lt hj)]
    exact or_undriven_eq_carriesUndriven ..
  | true =>
    rw [undrivenDinReach_decode h, confine_getLsbD_not, permI_hasBitMap _ j hj, not_dinDriven_getLsbD p (dstF_lt hj)]
    exact or_undriven_eq_carriesUndriven ..

theorem undrivenReach_permuted_getLsbD (p : Pins) {j : Nat} (hj : j < 32) :
    (undrivenReach p).permuted.getLsbD j = (!p.opDriven.getLsbD 0 || permutedCarriesUndriven p j) := by
  rw [undrivenReach, BitVec.getLsbD_or, undrivenOpReach_permuted_getLsbD p hj, Bool.or_assoc, permutedCarriesUndriven]
  congr 1
  cases h : p.op.getLsbD 0 with
  | false =>
    rw [undrivenDinReach_encode h, permF_hasBitMap _ j hj, confine_getLsbD_not, not_dinDriven_getLsbD p (srcF_lt hj)]
    exact or_undriven_eq_carriesUndriven ..
  | true =>
    rw [undrivenDinReach_decode h, not_dinDriven_getLsbD p hj, if_pos rfl, Bool.and_false, Bool.false_or, if_pos rfl,
      carriesUndriven_false]

/-- The driven bits of fully driven pins. -/
theorem Pins.driven_of_allDriven {p : Pins} (h : p.allDriven = true) :
    p.opDriven = 0b11#2 ∧ p.dinDriven = 0xFFFFFFFF#32 := by
  rw [Pins.eq_drive_of_allDriven h]
  exact ⟨rfl, rfl⟩

/-- Driven inputs leave no output bit free. -/
theorem undrivenReach_of_allDriven {p : Pins} (h : p.allDriven = true) : undrivenReach p = ⟨0#32, 0#32⟩ := by
  obtain ⟨hod, hxd⟩ := Pins.driven_of_allDriven h
  have hop : undrivenOpReach p = ⟨0#32, 0#32⟩ := by
    unfold undrivenOpReach
    rw [hod]
    cases p.op.getLsbD 0 <;> decide
  have hdin : undrivenDinReach p = ⟨0#32, 0#32⟩ := by
    cases h0 : p.op.getLsbD 0 with
    | false => rw [undrivenDinReach_encode h0, hxd]; cases p.op.getLsbD 1 <;> decide
    | true => rw [undrivenDinReach_decode h0, hxd]; cases p.op.getLsbD 1 <;> decide
  rw [undrivenReach, hop, hdin, BitVec.or_self]

/-- With driven inputs, outputs that hold are `eval` of the inputs on every bit. -/
theorem State.answer_eq_of_outputsHold {s : State} (hd : s.pins.allDriven = true) (h : s.outputsHold) :
    s.answer = eval s.pins.op s.pins.din := by
  have eq_of_agree (a b : Word) (hab : agreeOutside 0#32 a b) : a = b := by
    rwa [agreeOutside, BitVec.not_zero, BitVec.and_allOnes, BitVec.and_allOnes] at hab
  rw [State.outputsHold, undrivenReach_of_allDriven hd] at h
  obtain ⟨hdout, hpermuted⟩ := h
  rw [State.answer, eq_of_agree _ _ hdout, eq_of_agree _ _ hpermuted]

/-- An undriven `op[0]` leaves every output bit free. -/
theorem undrivenReach_of_op_zero {p : Pins} (h : p.opDriven.getLsbD 0 = false) :
    undrivenReach p = ⟨BitVec.allOnes 32, BitVec.allOnes 32⟩ := by
  have hop : undrivenOpReach p = ⟨BitVec.allOnes 32, BitVec.allOnes 32⟩ := by
    unfold undrivenOpReach
    rw [h]
    rfl
  rw [undrivenReach, hop, BitVec.allOnes_or, BitVec.allOnes_or]

/-- A word that is free on every bit is the free word. -/
theorem mixFree_allOnes (v free : Word) : mixFree (BitVec.allOnes 32) v free = free := by
  rw [mixFree, BitVec.not_allOnes, BitVec.and_zero, BitVec.zero_or, BitVec.and_allOnes]

/-- A bit is defined where its source is driven and, on a don't-care bit, `op[1]` is driven too; a don't-care bit that
`op[1]` confines needs no source (70_reset_and_hazards.md R120). -/
theorem not_carriesUndriven (p : Pins) (i : Nat) (c : Bool) :
    (!carriesUndriven p i c) =
      if p.op.getLsbD 1 then (p.dinDriven.getLsbD i || c) && (p.opDriven.getLsbD 1 || !c)
      else p.dinDriven.getLsbD i && (p.opDriven.getLsbD 1 || !c) := by
  unfold carriesUndriven
  cases c <;> cases p.op.getLsbD 1 <;> simp [Bool.and_comm]

/-- A bit is free where `op[0]` is undriven or it carries something undriven, and defined otherwise. -/
theorem ite_or_eq_ite_and_not (d u free defined : Bool) :
    (if !d || u then free else defined) = if d && !u then defined else free := by
  cases d <;> cases u <;> rfl

/-! ## Pins that agree where they are driven -/

/-- Words that agree on the driven bits agree on each of them. -/
theorem getLsbD_eq_of_and_eq {n : Nat} {a b u : BitVec n} (h : a &&& u = b &&& u) {j : Nat} (hj : u.getLsbD j = true) :
    a.getLsbD j = b.getLsbD j := by
  have hbit := congrArg (·.getLsbD j) h
  simpa only [BitVec.getLsbD_and, hj, Bool.and_true] using hbit

section
variable {p q : Pins} (h : samePinsWhereDriven p q)
include h

theorem samePinsWhereDriven.op_getLsbD {k : Nat} (hk : p.opDriven.getLsbD k = true) : p.op.getLsbD k = q.op.getLsbD k := by
  obtain ⟨hod, -, hop, -⟩ := h
  exact getLsbD_eq_of_and_eq (hod ▸ hop) hk

theorem samePinsWhereDriven.din_getLsbD {k : Nat} (hk : p.dinDriven.getLsbD k = true) :
    p.din.getLsbD k = q.din.getLsbD k := by
  obtain ⟨-, hxd, -, hdin⟩ := h
  exact getLsbD_eq_of_and_eq (hxd ▸ hdin) hk

theorem samePinsWhereDriven.allDriven_eq : p.allDriven = q.allDriven := by
  obtain ⟨hod, hxd, -⟩ := h
  rw [Pins.allDriven, Pins.allDriven, hod, hxd]

/-- Fully driven pins that agree are the same pins. -/
theorem samePinsWhereDriven.eq_of_allDriven (hd : p.allDriven = true) : p = q := by
  have hqd : q.allDriven = true := h.allDriven_eq ▸ hd
  obtain ⟨hpod, hpxd⟩ := Pins.driven_of_allDriven hd
  obtain ⟨hqod, hqxd⟩ := Pins.driven_of_allDriven hqd
  have and_opOnes (x : BitVec 2) : x &&& 0b11#2 = x := BitVec.and_allOnes
  have and_dinOnes (x : Word) : x &&& 0xFFFFFFFF#32 = x := BitVec.and_allOnes
  obtain ⟨-, -, hop, hdin⟩ := h
  rw [hpod, hqod, and_opOnes, and_opOnes] at hop
  rw [hpxd, hqxd, and_dinOnes, and_dinOnes] at hdin
  rw [Pins.eq_drive_of_allDriven hd, Pins.eq_drive_of_allDriven hqd, hop, hdin]

/-- Which output bits carry something undriven does not rest on a stored value. -/
theorem samePinsWhereDriven.carriesUndriven_eq (i : Nat) (c : Bool) : carriesUndriven p i c = carriesUndriven q i c := by
  have hop : p.opDriven.getLsbD 1 = true → p.op.getLsbD 1 = q.op.getLsbD 1 := h.op_getLsbD
  obtain ⟨hod, hxd, -⟩ := h
  unfold carriesUndriven
  rw [← hod, ← hxd]
  cases hk : p.opDriven.getLsbD 1 with
  | false => rfl
  | true => rw [hop hk]

/-- An output bit that carries nothing undriven carries the same in both. -/
theorem samePinsWhereDriven.carriedBit_eq {i : Nat} {c : Bool} (hc : carriesUndriven p i c = false) (k : Bool) :
    carriedBit p i c k = carriedBit q i c k := by
  unfold carriedBit
  cases c with
  | false =>
    rw [carriesUndriven_false, Bool.not_eq_false'] at hc
    rw [h.din_getLsbD hc, Bool.false_and, Bool.false_and]
  | true =>
    simp only [carriesUndriven, if_true, Bool.or_eq_false_iff, Bool.not_eq_false', Bool.and_eq_false_iff] at hc
    obtain ⟨hk, hconfined | hi⟩ := hc
    · rw [← h.op_getLsbD hk, hconfined, Bool.true_and, Bool.not_true, Bool.and_false, Bool.and_false]
    · rw [h.op_getLsbD hk, h.din_getLsbD hi]

/-- The output bits that are free do not rest on what an undriven bit is stored as. -/
theorem samePinsWhereDriven.undrivenReach_eq : undrivenReach p = undrivenReach q := by
  have ⟨hod, _⟩ := h
  cases hk : p.opDriven.getLsbD 0 with
  | false => rw [undrivenReach_of_op_zero hk, undrivenReach_of_op_zero (hod ▸ hk)]
  | true =>
    have hdout : (undrivenReach p).dout = (undrivenReach q).dout := BitVec.eq_of_getLsbD_eq fun j hj => by
      simp only [undrivenReach_dout_getLsbD _ hj, doutCarriesUndriven, hod, h.op_getLsbD hk, h.carriesUndriven_eq]
    have hpermuted : (undrivenReach p).permuted = (undrivenReach q).permuted := BitVec.eq_of_getLsbD_eq fun j hj => by
      simp only [undrivenReach_permuted_getLsbD _ hj, permutedCarriesUndriven, hod, h.op_getLsbD hk, h.carriesUndriven_eq]
    calc undrivenReach p = ⟨(undrivenReach p).dout, (undrivenReach p).permuted⟩ := rfl
      _ = undrivenReach q := by rw [hdout, hpermuted]

/-- A bit of `dout` that is not free does not rest on what an undriven bit is stored as. -/
theorem samePinsWhereDriven.eval_dout_getLsbD_eq {j : Nat} (hj : j < 32) (hfree : (undrivenReach p).dout.getLsbD j = false) :
    (eval p.op p.din).dout.getLsbD j = (eval q.op q.din).dout.getLsbD j := by
  rw [undrivenReach_dout_getLsbD p hj, Bool.or_eq_false_iff, Bool.not_eq_false', doutCarriesUndriven] at hfree
  obtain ⟨hk, hfree⟩ := hfree
  rw [eval_dout_getLsbD p hj, eval_dout_getLsbD q hj, ← h.op_getLsbD hk]
  cases hop : p.op.getLsbD 0 with
  | false =>
    rw [hop, if_neg Bool.false_ne_true] at hfree
    exact congrArg (· ^^ key.getLsbD j) (h.carriedBit_eq hfree false)
  | true =>
    rw [hop, if_pos rfl] at hfree
    exact h.carriedBit_eq hfree _

/-- A bit of `permuted` that is not free does not rest on what an undriven bit is stored as. -/
theorem samePinsWhereDriven.eval_permuted_getLsbD_eq {j : Nat} (hj : j < 32)
    (hfree : (undrivenReach p).permuted.getLsbD j = false) :
    (eval p.op p.din).permuted.getLsbD j = (eval q.op q.din).permuted.getLsbD j := by
  rw [undrivenReach_permuted_getLsbD p hj, Bool.or_eq_false_iff, Bool.not_eq_false', permutedCarriesUndriven] at hfree
  obtain ⟨hk, hfree⟩ := hfree
  rw [eval_permuted_getLsbD p hj, eval_permuted_getLsbD q hj, ← h.op_getLsbD hk]
  cases hop : p.op.getLsbD 0 with
  | false =>
    rw [hop, if_neg Bool.false_ne_true] at hfree
    exact h.carriedBit_eq hfree false
  | true =>
    rw [hop, if_pos rfl] at hfree
    exact h.carriedBit_eq hfree _

end

/-- A mixed word reads of its defined part only the bits that are not free. -/
theorem mixFree_congr {u v w : Word} (h : ∀ j < 32, u.getLsbD j = false → v.getLsbD j = w.getLsbD j) (free : Word) :
    mixFree u v free = mixFree u w free := by
  apply BitVec.eq_of_getLsbD_eq
  intro j hj
  rw [mixFree_getLsbD _ _ _ j hj, mixFree_getLsbD _ _ _ j hj]
  cases hu : u.getLsbD j with
  | true => rfl
  | false => exact h j hj hu

/-- Settled samples of pins that agree where they are driven answer the same, if their draws are the same. -/
theorem State.sampleUndriven_answer_eq {s s' : State} (h : samePinsWhereDriven s.pins s'.pins) (hdraws : s.draws = s'.draws) :
    s.sampleUndriven.answer = s'.sampleUndriven.answer := by
  rw [State.answer, State.answer, State.sampleUndriven_dout, State.sampleUndriven_dout, State.sampleUndriven_permuted,
    State.sampleUndriven_permuted, ← hdraws, ← h.undrivenReach_eq,
    mixFree_congr fun _ => h.eval_dout_getLsbD_eq,
    mixFree_congr fun _ => h.eval_permuted_getLsbD_eq]

end Sys2Proof.Machine

namespace Sys2Proof.Proofs

open Sys2Proof.Machine

/-- Settles O20: the mask of the first term moves with it, and an arithmetic shift adds all ones in the byte positions 2
and 3 of the permuted word, where bytes 0 and 2 of the operand stand. -/
theorem encodeShiftsAreLogical : Obligations.EncodeShiftsAreLogical := by
  intro f s h
  have hterm : WithinMask 0x000000FF#32 (f >>> 24) := (withinMask_allOnes f).ushiftRight 24 (by decide)
  rw [sshiftRight_shiftLeft_eq_ofBytes h]
  refine ⟨hterm.le, (hterm.shiftLeft 8 (by decide)).le, ?_, _, exec_eq_transact _ s, ?_⟩
  · calc ofBytes 0xFF#8 0xFF#8 (byteAt 3 f) 0#8 &&& 0xFFFF0000#32
        = ofBytes 0xFF#8 0xFF#8 (byteAt 3 f) 0#8 &&& ofBytes 0xFF#8 0xFF#8 0#8 0#8 := by
          rw [show ofBytes 0xFF#8 0xFF#8 0#8 0#8 = 0xFFFF0000#32 by decide]
      _ = ofBytes 0xFF#8 0xFF#8 0#8 0#8 := by
          rw [ofBytes_and, BitVec.and_self, BitVec.and_zero, BitVec.and_zero]
      _ = 0xFFFF0000#32 := by decide
  · rw [State.transact_permuted, eval_op_din]
    exact permF_eq_or_iff f

/-- Settles O46: a bit of a settled sample is free where it depends on an undriven bit, and what each output bit depends on is
read off bit by bit. -/
theorem undrivenBitsReachExactlyTheirOutputs : Obligations.UndrivenBitsReachExactlyTheirOutputs := by
  intro s hr hd
  refine ⟨_, step_undriven hr hd, State.sampleUndriven_pins s, ?_⟩
  intro j hj known dKnown tKnown e doutDefined permutedDefined
  have hencode : decide (26 ≤ srcF j) = decide (10 ≤ j ∧ j < 16) := decide_eq_decide.mpr (srcF_dontCare_iff j hj)
  have hdout : doutDefined = !doutCarriesUndriven s.pins j := by
    unfold doutDefined
    rw [doutCarriesUndriven, apply_ite (!·), not_carriesUndriven, not_carriesUndriven, ← hencode]
    cases s.pins.op.getLsbD 0 <;> cases s.pins.op.getLsbD 1 <;> rfl
  have hpermuted : permutedDefined = !permutedCarriesUndriven s.pins j := by
    unfold permutedDefined
    rw [permutedCarriesUndriven, apply_ite (!·), carriesUndriven_false, Bool.not_not, not_carriesUndriven, ← hencode]
    cases s.pins.op.getLsbD 0 <;> cases s.pins.op.getLsbD 1 <;> rfl
  constructor
  · rw [State.sampleUndriven_dout, mixFree_getLsbD _ _ _ j hj, undrivenReach_dout_getLsbD _ hj, hdout]
    exact ite_or_eq_ite_and_not ..
  · rw [State.sampleUndriven_permuted, mixFree_getLsbD _ _ _ j hj, undrivenReach_permuted_getLsbD _ hj, hpermuted]
    exact ite_or_eq_ite_and_not ..

/-- Settles O47: the two steps are samples of the same kind. Those within `T_PD` draw the same values, driven pins that agree
are the same pins, and a sample with an undriven bit reads no stored value of one. -/
theorem undrivenValuesAreNeverRead : Obligations.UndrivenValuesAreNeverRead := by
  intro s s' h hphase hdraws
  have hdriven : s.pins.allDriven = s'.pins.allDriven := h.allDriven_eq
  cases hr : s.phase.remaining with
  | succ n =>
    refine ⟨_, _, step_unsettled hr, step_unsettled (hphase ▸ hr), ?_, rfl, congrArg (· + 1) hdraws, h⟩
    rw [State.answer, State.answer, State.sampleUnsettled_dout, State.sampleUnsettled_dout, State.sampleUnsettled_permuted,
      State.sampleUnsettled_permuted, hdraws]
  | zero =>
    cases hd : s.pins.allDriven with
    | true =>
      have hpins : s.pins = s'.pins := h.eq_of_allDriven hd
      refine ⟨_, _, (step_driven hr hd).trans (exec_eq_transact _ s),
        (step_driven (hphase ▸ hr) (hdriven ▸ hd)).trans (exec_eq_transact _ s'), ?_, ?_, ?_, ?_⟩
      · rw [State.transact_answer, State.transact_answer, hpins]
      · rw [State.transact_phase, State.transact_phase]
      · rw [State.transact_draws, State.transact_draws, hdraws]
      · rw [State.transact_pins, State.transact_pins, hpins]
        exact ⟨rfl, rfl, rfl, rfl⟩
    | false =>
      exact ⟨_, _, step_undriven hr hd, step_undriven (hphase ▸ hr) (hdriven ▸ hd), State.sampleUndriven_answer_eq h hdraws,
        rfl, congrArg (· + 1) hdraws, h⟩

/-- Settles O44: the presented transaction stands on the ports, completes with the first sample after `T_PD`, and a completed
transaction is a fixed point of every run. -/
theorem heldInputsSettleToTheTransaction : Obligations.HeldInputsSettleToTheTransaction := by
  intro s i
  obtain ⟨u, hu⟩ := core_run_held (s.present_pins (Pins.ofInstr i))
  exact ⟨_, hu, State.transact_answer .., State.transact_pins .., State.transact_phase ..,
    core_run_eq_self (step_transact u i)⟩

/-- Settles O48: both orders leave the same pair on the ports, and what stood there between is gone. -/
theorem skewedInputsDefineTheHeldPair : Obligations.SkewedInputsDefineTheHeldPair := by
  intro s i
  obtain ⟨t, ht⟩ := core_run_held (s.presentDin_presentOp_pins i)
  obtain ⟨u, hu⟩ := core_run_held (s.presentOp_presentDin_pins i)
  exact ⟨_, _, ht, hu, State.transact_answer .., State.transact_answer .., State.transact_pins .., State.transact_pins ..⟩

/-- Settles O51: with driven inputs the invariant makes the outputs `eval` of the inputs on every bit, so that a sample finds
the transaction completed. -/
theorem settledOutputsStay : Obligations.SettledOutputsStay := fun _ hi hphase hd =>
  step_eq_self hphase hd (State.answer_eq_of_outputsHold hd (hi hphase))

/-- Settles O45: the unsettled sample and the change of the inputs. -/
theorem unsettledOutputsAreFree : Obligations.UnsettledOutputsAreFree := by
  constructor
  · intro s n hphase
    exact step_unsettled (congrArg Phase.remaining hphase)
  · intro s p hp
    rw [State.present, if_neg hp]

/-- Settles O49: no bit is driven at reset, so the first sample is an undriven one, whose every bit is free. -/
theorem powerUpOutputsAreFree : Obligations.PowerUpOutputsAreFree := by
  refine ⟨rfl, rfl, rfl, rfl, ⟨_, step_undriven rfl rfl, ?_, ?_⟩, fun i s => ?_⟩
  · rw [State.sampleUndriven_dout, undrivenReach_of_op_zero rfl, mixFree_allOnes]
    rfl
  · rw [State.sampleUndriven_permuted, undrivenReach_of_op_zero rfl, mixFree_allOnes]
    rfl
  · exact ⟨_, _, exec_eq_transact i _, exec_eq_transact i s, rfl⟩

/-- Settles O53: the phase at reset is still settling. -/
theorem powerUpMeetsTheSettledInvariant : Obligations.PowerUpMeetsTheSettledInvariant :=
  State.inv_of_settling rfl

end Sys2Proof.Proofs
end
